-- ==== Sys2Proof/Word.lean ====
section
/-! DEFINITION. The bit vectors of the SHA-1 block compressor: widths only (00_scope.md R6, R8). Every value
is an unsigned bit vector; `+` on `Word` is the spec's `+32` and `+` on `BitVec 64` its `+64` (R9). -/

namespace Sys2Proof

/-- A byte of the message or of the pending buffer. -/
abbrev Byte := BitVec 8

/-- A 32-bit word of the running state, the schedule and the DATA field (R6). -/
abbrev Word := BitVec 32

/-- A command beat: one 40-bit word on the command port (30_encoding.md R60, R70). -/
abbrev Beat := BitVec 40

/-- The 64 bytes a block transform consumes, and the shape of PBUF (10_state.md R24). -/
abbrev Block := Vector Byte 64

/-- The five 32-bit words of the running hash state, H[0] first (10_state.md R21). -/
abbrev HashState := Vector Word 5

end Sys2Proof
end

