-- ==== Sys2Proof/Config.lean ====
section
/-! DEFINITION. What the spec leaves open: the fresh draws of unspecified reads, and the latency parameters
(00_scope.md R7, R11; 93_implementation_defined.md U7, U8, U9). Nothing here has a value a proof can see. -/

namespace Sys2Proof.Config

/-- FREE VALUE (log entry 3). What the n-th read of the model sees in the fields of STATUS, bits [13:0], BUSY
apart, when that read is made while BUSY = 1: unspecified, a fresh draw (20_memory.md R51;
70_reset_and_hazards.md R160). -/
opaque statusDraw : Nat → BitVec 14

/-- FREE VALUE (log entry 3). What the n-th read of the model sees on the DIGEST port when BUSY = 1 or
PHASE ≠ FINALIZED: unspecified, a fresh draw on every read (10_state.md R35; 20_memory.md R51). -/
opaque digestDraw : Nat → BitVec 160

/-- The open latencies LAT_NOP, LAT_INIT, LAT_UPDATE(k) and LAT_FINAL(k), an argument wherever they are used
(00_scope.md R7; 70_reset_and_hazards.md R164). No functional rule reads them. -/
structure Latencies where
  nop    : Nat
  init   : Nat
  update : Nat → Nat
  final  : Nat → Nat

/-- "Any value of at least 1" (00_scope.md R7). -/
def Latencies.Legal (lat : Latencies) : Prop :=
  1 ≤ lat.nop ∧ 1 ≤ lat.init ∧ (∀ k, 1 ≤ lat.update k) ∧ (∀ k, 1 ≤ lat.final k)

end Sys2Proof.Config
end

