-- ==== Sys2Proof/Syntax.lean ====
section
/-! DEFINITION. The command set `SHA1C-CMD v1`: one constructor per row of the opcode table
(30_encoding.md R62, R64). -/

namespace Sys2Proof

/-- A command. Each constructor keeps the whole DATA field of its beat, the ignored lanes too, so that the
beat can be written back from the command: the fault record holds the beat (60_exceptions.md R136). -/
inductive Instr
  /-- NOP; DATA is ignored (R62). -/
  | nop (data : Word)
  /-- INIT; DATA is ignored (R62). -/
  | init (data : Word)
  /-- UPDATE: `cnt` message bytes, the first `cnt` big-endian lanes of `data` (R62, R64). -/
  | update (cnt : BitVec 3) (data : Word)
  /-- FINAL; DATA is ignored (R62). -/
  | final (data : Word)
deriving DecidableEq, Repr

/-- The DATA field of a command. -/
def Instr.data : Instr → Word
  | .nop d => d
  | .init d => d
  | .update _ d => d
  | .final d => d

end Sys2Proof
end

