-- ==== Sys2Proof/WellFormed.lean ====
section
/-! DEFINITION. Which commands have a legal beat: the one constraint of the opcode table is CNT ≤ 4 on
UPDATE (30_encoding.md R63, R68). -/

namespace Sys2Proof

/-- UPDATE carries 0 to 4 bytes; CNT 5, 6 and 7 are illegal (R68). NOP, INIT and FINAL have no operand. -/
def Instr.wellFormed : Instr → Bool
  | .nop _ => true
  | .init _ => true
  | .update cnt _ => decide (cnt.toNat ≤ 4)
  | .final _ => true

end Sys2Proof
end

