-- ==== Sys2Proof/Decode.lean ====
section
/-! DEFINITION. The decoder, total over 40-bit beats (30_encoding.md R60, R61, R68, R69), the fault causes it
rejects by (60_exceptions.md R137), and after it the encoder (R63). -/

namespace Sys2Proof

/-- The causes a beat can fault with (60_exceptions.md R137). Each is TAKEN as a next state with PHASE = FAULTED;
none stops the machine. -/
inductive Cause
  /-- OPC is 0x4 to 0xF: raised by the decoder (R68). -/
  | reservedOpcode
  /-- RSV = 1, or CNT ≠ 0 on NOP, INIT or FINAL: raised by the decoder (R68). -/
  | reservedField
  /-- UPDATE with CNT 5, 6 or 7: raised by the decoder (R68). -/
  | badCount
  /-- UPDATE or FINAL outside ACTIVE: raised by the two commands (60_exceptions.md R138). -/
  | notActive
deriving DecidableEq, Repr

/-- The 4-bit code FCAUSE holds for a cause; 0 is NONE (60_exceptions.md R137). -/
def Cause.code : Cause → BitVec 4
  | .reservedOpcode => 1#4
  | .reservedField => 2#4
  | .badCount => 3#4
  | .notActive => 4#4

/-- OPC = c[39:36] (R61). -/
def opcField (c : Beat) : BitVec 4 := c.extractLsb' 36 4

/-- CNT = c[35:33] (R61). -/
def cntField (c : Beat) : BitVec 3 := c.extractLsb' 33 3

/-- RSV = c[32] (R61). -/
def rsvField (c : Beat) : BitVec 1 := c.extractLsb' 32 1

/-- DATA = c[31:0] (R61). -/
def dataField (c : Beat) : Word := c.extractLsb' 0 32

/-- The total decoder, with its checks in the order the spec fixes (30_encoding.md R69). -/
def decode (c : Beat) : Except Cause Instr :=
  if 4 ≤ (opcField c).toNat then .error .reservedOpcode
  else if rsvField c = 1#1 then .error .reservedField
  else if opcField c ≠ 2#4 ∧ cntField c ≠ 0#3 then .error .reservedField
  else if opcField c = 2#4 ∧ 4 < (cntField c).toNat then .error .badCount
  else if opcField c = 0#4 then .ok (.nop (dataField c))
  else if opcField c = 1#4 then .ok (.init (dataField c))
  else if opcField c = 2#4 then .ok (.update (cntField c) (dataField c))
  else .ok (.final (dataField c))

/-- The four fields of a beat, from the most significant down (30_encoding.md R60). -/
def packBeat (opc : BitVec 4) (cnt : BitVec 3) (rsv : BitVec 1) (data : Word) : Beat :=
  opc ++ cnt ++ rsv ++ data

/-- The OPC value of a command (30_encoding.md R62). -/
def opcodeOf : Instr → BitVec 4
  | .nop _ => 0#4
  | .init _ => 1#4
  | .update _ _ => 2#4
  | .final _ => 3#4

/-- The CNT value of a command: its byte count for UPDATE, 0 for the others (30_encoding.md R62). -/
def countOf : Instr → BitVec 3
  | .nop _ => 0#3
  | .init _ => 0#3
  | .update cnt _ => cnt
  | .final _ => 0#3

/-- The beat of a command (30_encoding.md R63). -/
def encode (i : Instr) : Beat := packBeat (opcodeOf i) (countOf i) 0#1 i.data

/-- The beat an opcode-table word stands for: its low `nbits` bits, in the table's numbering, which is the
beat's own (every beat is exactly 40 bits, 30_encoding.md R70). -/
def tableBeat (nbits w : Nat) : Beat := BitVec.ofNat 40 (w % 2 ^ nbits)

/-- The command the decoder reads from an opcode-table word, none where it rejects it. -/
def decodeTableWord (nbits w : Nat) : Option Instr :=
  match decode (tableBeat nbits w) with
  | .ok i => some i
  | .error _ => none

end Sys2Proof
end

