-- ==== Sys2Proof/Machine/State.lean ====
section
/-! DEFINITION. The state of one instance: the block's record (10_state.md R20, R40), which is BlockState, and beside
it what stands at the block's ports (30_encoding.md R72; 70_reset_and_hazards.md R166), as plain data. -/

namespace Sys2Proof.Machine

/-- The 2-bit PHASE register; every encoding has a meaning (10_state.md R30). -/
inductive Phase
  /-- 0: after reset, no context exists. -/
  | uninit
  /-- 1: a context is in progress. -/
  | active
  /-- 2: FINAL has completed, the digest is valid. -/
  | finalized
  /-- 3: a fault occurred, every beat is discarded until reset. -/
  | faulted
deriving DecidableEq, Repr

/-- One entry of the model's fault record: (cause, beat, PHASE before) (60_exceptions.md R136). -/
structure FaultEntry where
  cause       : Cause
  beat        : Beat
  phaseBefore : Phase
deriving DecidableEq, Repr

/-- The two output ports a host may read (30_encoding.md R72). -/
inductive ReadPort
  | status
  | digest
deriving DecidableEq, Repr

/-- What a read gave back to the host (70_reset_and_hazards.md R166, last column). -/
inductive Reading
  | status (value : BitVec 32)
  | digest (value : BitVec 160)
deriving DecidableEq, Repr

/-- The moves the host has (70_reset_and_hazards.md R166). A host that breaks a duty has no move
(60_exceptions.md R152): an issued beat stands at the head of the list, unchanged, until it is accepted. -/
inductive HostMove
  /-- Offer a beat and hold it until it is accepted; `whileBusy` are the reads the host makes while that
  command executes, that is while BUSY = 1. -/
  | issue (beat : Beat) (whileBusy : List ReadPort)
  /-- Read a port between two commands. -/
  | read (port : ReadPort)
  /-- cmd_valid = 0 for a while. -/
  | idle
  /-- rst = 1 for at least one edge, then released; `whileHeld` are the reads made before the release. -/
  | reset (whileHeld : List ReadPort)
deriving DecidableEq, Repr

/-- The state of one block, "exactly the following record ... plus the model-level fault record", and the command
log (10_state.md R20; 60_exceptions.md R136; 70_reset_and_hazards.md R165). The block has nothing else. -/
structure BlockState where
  /-- H[0..4], the running hash state (R21). -/
  h : HashState
  /-- PBUF[0..63], the pending buffer (R24). -/
  pbuf : Block
  /-- PLEN, the count of valid bytes in PBUF, 0..63 (R25). -/
  plen : BitVec 6
  /-- TBITS, the message bits of completed blocks modulo 2^64 (R26). -/
  tbits : BitVec 64
  /-- PHASE (R30). -/
  phase : Phase
  /-- FCAUSE, 0 while PHASE ≠ FAULTED (R32). -/
  fcause : BitVec 4
  /-- The model's fault record, oldest first; no command clears it (R136, R142). -/
  faultRecord : List FaultEntry
  /-- The command log: the beats accepted since reset, oldest first (R165). -/
  log : List Beat
deriving DecidableEq, Repr

/-- What stands at the block's ports, outside the block: the handshake line, and the other agent's side of the ports
(00_scope.md R13; 30_encoding.md R72; log entries 2 and 3). None of it is a history: `inbox` is input still to come,
`readings` is the output of the last step alone. -/
structure Ports where
  /-- BUSY = NOT cmd_ready: 1 while an accepted command executes, 0 between commands (R29). -/
  busy : Bool
  /-- The host's moves still to come, the next one first (R13, R57, R166). -/
  inbox : List HostMove
  /-- What the host got back in the last step, in the order of its reads (R166, last column). -/
  readings : List Reading
  /-- The index of the next fresh draw (R11). -/
  draws : Nat
deriving DecidableEq, Repr

/-- The machine: the block's state, and what stands at its ports. -/
structure State extends BlockState, Ports
deriving DecidableEq, Repr

/-- No step of this hardware stops: a misuse or an illegal beat TAKES its fault, a next state with
PHASE = FAULTED (60_exceptions.md R136), and "No stuck state exists" (93_implementation_defined.md section 1).
So the type has no constructor, nothing raises one, and this is safe. -/
inductive Fault
deriving DecidableEq, Repr

/-- What the model has no meaning for. -/
inductive Refusal
  /-- Raised by an arm of `exec` for a command without a meaning; no arm does so now. Safe: nothing is
  claimed of such a command. -/
  | notModelled (mnemonic : String)
deriving DecidableEq, Repr

/-- The machine right after reset is released (10_state.md R40; 70_reset_and_hazards.md R155): PHASE = UNINIT,
FCAUSE = NONE, BUSY = 0. H, PBUF, PLEN and TBITS are unspecified there: zero, DESIGN CHOICE, unsafe (log
entry 1). The draw counter starts at 0, DESIGN CHOICE (log entry 3). -/
def State.reset : State where
  h := Vector.replicate 5 0#32
  pbuf := Vector.replicate 64 0#8
  plen := 0#6
  tbits := 0#64
  phase := .uninit
  fcause := 0#4
  busy := false
  faultRecord := []
  log := []
  inbox := []
  readings := []
  draws := 0

end Sys2Proof.Machine
end

