-- ==== Sys2Proof/Machine/Flags.lean ====
section
/-! DEFINITION. The STATUS and DIGEST ports as views of the state (10_state.md R29, R33, R34, R35). -/

namespace Sys2Proof.Machine

/-- The 2-bit encoding of PHASE (R30). -/
def Phase.code : Phase → BitVec 2
  | .uninit => 0#2
  | .active => 1#2
  | .finalized => 2#2
  | .faulted => 3#2

/-- DIGEST_VALID: 1 exactly when PHASE = FINALIZED (R29). -/
def digestValid (s : State) : Bool := decide (s.phase = .finalized)

/-- PLEN_VIEW: PLEN in ACTIVE, 0 in every other phase (R34). -/
def plenView (s : State) : BitVec 6 := if s.phase = .active then s.plen else 0#6

/-- cmd_ready = NOT BUSY (30_encoding.md R72). -/
def cmdReady (s : State) : Bool := !s.busy

/-- The STATUS word, [31:14] reserved, [13:10] FCAUSE, [9:4] PLEN_VIEW, [3] BUSY, [2] DIGEST_VALID, [1:0] PHASE
(R33). -/
def statusWord (s : State) : BitVec 32 :=
  0#18 ++ s.fcause ++ plenView s ++ BitVec.ofBool s.busy ++ BitVec.ofBool (digestValid s) ++ s.phase.code

/-- `H[0] ‖ H[1] ‖ H[2] ‖ H[3] ‖ H[4]` (R35). -/
def digestWord (h : HashState) : BitVec 160 := h[0] ++ h[1] ++ h[2] ++ h[3] ++ h[4]

/-- What a STATUS read returns while BUSY = 1: BUSY is 1, the fields FCAUSE, PLEN_VIEW, DIGEST_VALID and PHASE are the
draw's (20_memory.md R51), and the reserved bits [31:14] are hardwired to 0 (R33; log entry 4). -/
def busyStatus (draw : BitVec 14) : BitVec 32 := 0#18 ++ (draw ||| 0x0008#14)

end Sys2Proof.Machine
end

