-- ==== Sys2Proof/Machine/Bytes.lean ====
section
/-! DEFINITION. The byte-order and rotation primitives (00_scope.md R9; 20_memory.md R46) and the accesses to a
64-byte block (00_scope.md R10). The block is big-endian throughout. -/

namespace Sys2Proof.Machine

/-- `be32(b0,b1,b2,b3) = b0 ‖ b1 ‖ b2 ‖ b3` (R9). -/
def be32 (b0 b1 b2 b3 : Byte) : Word := b0 ++ b1 ++ b2 ++ b3

/-- Byte `n` (0..3) of `be32bytes(w)`: `w[31-8n : 24-8n]` (R9). -/
def be32byte (w : Word) (n : Nat) : Byte := w.extractLsb' (24 - 8 * n) 8

/-- Byte `k` (0..7) of `be64bytes(v)`: `v[63-8k : 56-8k]` (R9). -/
def be64byte (v : BitVec 64) (k : Nat) : Byte := v.extractLsb' (56 - 8 * k) 8

/-- `rotl32(x, n)` for 1 ≤ n ≤ 31 (R9). -/
def rotl32 (x : Word) (n : Nat) : Word := (x <<< n) ||| (x >>> (32 - n))

/-- `B[lo + k] <- f k` for `k` in `[0, n)`, in that order. -/
def writeBytes (f : Nat → Byte) (lo n : Nat) (block : Block) : Block :=
  (List.range n).foldl (fun b k => b.setIfInBounds (lo + k) (f k)) block

/-- `for k in [lo, hi): B[k] <- 0x00`; nothing when the range is empty (42_stream.md R118). -/
def zeroFill (lo hi : Nat) (block : Block) : Block := writeBytes (fun _ => 0#8) lo (hi - lo) block

/-- `B[56 + k] <- be64bytes(v)[k]` for `k` in `[0, 8)` (42_stream.md R117). -/
def writeLength (v : BitVec 64) (block : Block) : Block := writeBytes (be64byte v) 56 8 block

end Sys2Proof.Machine
end

