-- ==== Sys2Proof/Machine/Transform.lean ====
section
/-! DEFINITION. The block transform, a pure function (41_transform.md R90 to R98), and the hardwired constants
it and INIT use (10_state.md R22, R23). -/

namespace Sys2Proof.Machine

/-- IV0..IV4 (10_state.md R22). -/
def iv : HashState := #v[0x67452301#32, 0xEFCDAB89#32, 0x98BADCFE#32, 0x10325476#32, 0xC3D2E1F0#32]

/-- `Kq(t)`, the round constant of round t: K0..K3, one per quadrant (10_state.md R23; R93). -/
def roundConstant (t : Nat) : Word :=
  if t < 20 then 0x5A827999#32
  else if t < 40 then 0x6ED9EBA1#32
  else if t < 60 then 0x8F1BBCDC#32
  else 0xCA62C1D6#32

/-- Choice (R92). -/
def ch (b c d : Word) : Word := (b &&& c) ||| (~~~b &&& d)

/-- Parity (R92). -/
def parity (b c d : Word) : Word := b ^^^ c ^^^ d

/-- Majority (R92). -/
def maj (b c d : Word) : Word := (b &&& c) ||| (b &&& d) ||| (c &&& d)

/-- `f(t, b, c, d)`, the mixing function of round t (R92). -/
def mix (t : Nat) (b c d : Word) : Word :=
  if t < 20 then ch b c d
  else if t < 40 then parity b c d
  else if t < 60 then maj b c d
  else parity b c d

/-- `W[t]` for t in 0..15: the block's bytes packed big-endian (R91; 20_memory.md R46). -/
def messageWord (block : Block) (t : Fin 16) : Word :=
  be32 block[4 * t.val] block[4 * t.val + 1] block[4 * t.val + 2] block[4 * t.val + 3]

/-- The next word after the words `w` of a schedule: with `t = w.length`,
`rotl32(W[t-3] XOR W[t-8] XOR W[t-14] XOR W[t-16], 1)` (R91). -/
def nextWord (w : List Word) : Word :=
  let t := w.length
  rotl32 (w.getD (t - 3) 0 ^^^ w.getD (t - 8) 0 ^^^ w.getD (t - 14) 0 ^^^ w.getD (t - 16) 0) 1

/-- A schedule grown by `n` words. -/
def extendSchedule : Nat → List Word → List Word
  | 0, w => w
  | n + 1, w => extendSchedule n (w ++ [nextWord w])

/-- The message schedule `W[0..79]` of a block (R91). -/
def schedule (block : Block) : List Word := extendSchedule 64 (List.ofFn (messageWord block))

/-- `W[t]`. -/
def scheduleWord (block : Block) (t : Nat) : Word := (schedule block).getD t 0

/-- The five working variables (10_state.md R36; R94). -/
structure Working where
  a : Word
  b : Word
  c : Word
  d : Word
  e : Word
deriving DecidableEq, Repr

/-- "Initialize five working variables from `state`" (R94). -/
def loadWorking (s : HashState) : Working := ⟨s[0], s[1], s[2], s[3], s[4]⟩

/-- One round, its five assignments made at once from the values before it (R95). -/
def roundStep (t : Nat) (w : Word) (v : Working) : Working :=
  { a := rotl32 v.a 5 + mix t v.b v.c v.d + v.e + roundConstant t + w
    b := v.a
    c := rotl32 v.b 30
    d := v.c
    e := v.d }

/-- The working variables after the first `n` rounds, with the schedule `w` (R95, R98). -/
def roundsFrom (w : List Word) (v : Working) : Nat → Working
  | 0 => v
  | n + 1 => roundStep n (w.getD n 0) (roundsFrom w v n)

/-- The feed-forward: state-additive, not state-replacing (R96). -/
def feedForward (s : HashState) (v : Working) : HashState :=
  #v[s[0] + v.a, s[1] + v.b, s[2] + v.c, s[3] + v.d, s[4] + v.e]

/-- `TRANSFORM(S, B)` (R98). -/
def transform (s : HashState) (block : Block) : HashState :=
  feedForward s (roundsFrom (schedule block) (loadWorking s) 80)

end Sys2Proof.Machine
end

