-- ==== Sys2Proof/Machine/Ops.lean ====
section
/-! DEFINITION. The named operations over the state: buffer accesses (00_scope.md R10), the byte append
(42_stream.md R111), running the transform (41_transform.md R98), taking a fault (60_exceptions.md R136), reset,
the only return from one (R142; 70_reset_and_hazards.md R155), and serving a read (10_state.md R33, R35). -/

namespace Sys2Proof.Machine

/-- `PBUF[k]` (00_scope.md R10). -/
def readPbuf (s : State) (k : Fin 64) : Byte := s.pbuf[k]

/-- `PBUF[k] <- x`, for k in 0..63 (00_scope.md R10). -/
def writePbuf (k : Nat) (x : Byte) (s : State) : State := { s with pbuf := s.pbuf.setIfInBounds k x }

/-- `PBUF[0..PLEN)`: the buffered bytes, the only meaningful ones between commands (10_state.md R24). -/
def pending (s : State) : List Byte := s.pbuf.toList.take s.plen.toNat

/-- The byte address the next append stores to: PLEN (20_memory.md R45). -/
def appendAddress (s : State) : Nat := s.plen.toNat

/-- `H <- TRANSFORM(H, PBUF[0..64))` (41_transform.md R98). -/
def runTransform (s : State) : State := { s with h := transform s.h s.pbuf }

/-- The block-full action of APPEND: transform, count 512 bits, empty the buffer (42_stream.md R111). -/
def completeBlock (s : State) : State :=
  { runTransform s with tbits := s.tbits + 512#64, plen := 0#6 }

/-- APPEND(x) (42_stream.md R111). The count 64 is a local value and is never stored (10_state.md R25). -/
def appendByte (x : Byte) (s : State) : State :=
  let stored := writePbuf (appendAddress s) x s
  let n := s.plen.toNat + 1
  if n = 64 then completeBlock stored else { stored with plen := BitVec.ofNat 6 n }

/-- APPEND of each byte in stream order (42_stream.md R112; 20_memory.md R48). -/
def appendBytes (bytes : List Byte) (s : State) : State := bytes.foldl (fun t x => appendByte x t) s

/-- Taking a fault, the one shared operation (60_exceptions.md R136): PHASE and FCAUSE are written, the model's
record is extended, everything else keeps its value. -/
def takeFault (cause : Cause) (beat : Beat) (s : State) : State :=
  { s with
    phase := .faulted
    fcause := cause.code
    faultRecord := s.faultRecord ++ [⟨cause, beat, s.phase⟩] }

/-- The reset event (70_reset_and_hazards.md R155): every register and record at its reset value; a new run
begins (R165). The host's side of the ports goes on. -/
def resetBlock (s : State) : State :=
  { State.reset with inbox := s.inbox, readings := s.readings, draws := s.draws }

/-- What a read of STATUS returns (10_state.md R33); while BUSY = 1 every field but BUSY is a draw (20_memory.md R51;
log entry 4). -/
def statusRead (s : State) : BitVec 32 :=
  if s.busy then busyStatus (Config.statusDraw s.draws) else statusWord s

/-- What a read of DIGEST returns: the digest in FINALIZED, a draw in every other phase and while BUSY = 1
(10_state.md R35; 20_memory.md R51). -/
def digestRead (s : State) : BitVec 160 :=
  if s.busy then Config.digestDraw s.draws
  else if s.phase = .finalized then digestWord s.h
  else Config.digestDraw s.draws

/-- What a read of a port returns. -/
def portRead (port : ReadPort) (s : State) : Reading :=
  match port with
  | .status => .status (statusRead s)
  | .digest => .digest (digestRead s)

/-- Serve one read: the host gets the value back, the draw counter advances, the block is unchanged: "No read
has a side effect" (20_memory.md R49). -/
def serveRead (port : ReadPort) (s : State) : State :=
  { s with readings := s.readings ++ [portRead port s], draws := s.draws + 1 }

/-- Serve reads made while BUSY = 1, and then let BUSY return to 0 (30_encoding.md R72; 20_memory.md R51). -/
def serveWhileBusy (ports : List ReadPort) (s : State) : State :=
  { ports.foldl (fun t p => serveRead p t) { s with busy := true } with busy := false }

end Sys2Proof.Machine
end

