-- ==== Sys2Proof/Machine/Context.lean ====
section
/-! DEFINITION. NOP and INIT (40_init.md R80, R82). -/

namespace Sys2Proof.Machine

/-- NOP: no state changes, in every phase (R80). -/
def execNop (_data : Word) (s : State) : Host.Outcome State Fault Refusal := .next s

/-- The writes of INIT; PBUF is not written (R82). -/
def startContext (s : State) : State :=
  { s with h := iv, plen := 0#6, tbits := 0#64, phase := .active }

/-- INIT: legal in UNINIT, ACTIVE and FINALIZED, discarded in FAULTED (R82; 60_exceptions.md R139). -/
def execInit (_data : Word) (s : State) : Host.Outcome State Fault Refusal :=
  if s.phase = .faulted then .next s else .next (startContext s)

end Sys2Proof.Machine
end

