-- ==== Sys2Proof/Machine/Operands.lean ====
section
/-! DEFINITION. The one operand form of the command set: the byte sequence of an UPDATE (20_memory.md R47;
30_encoding.md R61, R64). -/

namespace Sys2Proof.Machine

/-- Message byte `j` (0..3) of a DATA field: `DATA[31-8j : 24-8j]`, byte 0 first in stream order (R47). -/
def laneByte (data : Word) (j : Nat) : Byte := data.extractLsb' (24 - 8 * j) 8

/-- The operand of an UPDATE: `[byte_0, …, byte_{CNT-1}]`; lanes at and above CNT are ignored (R47, R64). -/
def updateBytes (cnt : BitVec 3) (data : Word) : List Byte := (List.range cnt.toNat).map (laneByte data)

end Sys2Proof.Machine
end

