-- ==== Sys2Proof/Machine/Stream.lean ====
section
/-! DEFINITION. UPDATE and FINAL (42_stream.md R112, R118). -/

namespace Sys2Proof.Machine

/-- UPDATE (R112), behind the phase gate (60_exceptions.md R139). A count above 4 has no legal beat; its term
faults as its beat would, before the phase check (R140). -/
def execUpdate (cnt : BitVec 3) (data : Word) (s : State) : Host.Outcome State Fault Refusal :=
  if s.phase = .faulted then .next s
  else if 4 < cnt.toNat then .next (takeFault .badCount (encode (.update cnt data)) s)
  else if s.phase ≠ .active then .next (takeFault .notActive (encode (.update cnt data)) s)
  else .next (appendBytes (updateBytes cnt data) s)

/-- Step 1 of FINAL: `PBUF[n0] <- 0x80` (R118). -/
def padMarker (s : State) : State := writePbuf s.plen.toNat 0x80#8 s

/-- Step 2 of FINAL with `i` in 1..64: one zero fill up to byte 56, or a fill to the end of the block, the
padding block's transform and a fresh fill of bytes 0..55 (R116, R118). TBITS is unchanged (R119). -/
def padFill (i : Nat) (s : State) : State :=
  if i ≤ 56 then { s with pbuf := zeroFill i 56 s.pbuf }
  else
    let full := runTransform { s with pbuf := zeroFill i 64 s.pbuf }
    { full with pbuf := zeroFill 0 56 full.pbuf }

/-- Step 3 of FINAL: `TBITS <- TBITS +64 (8 × n0)` (R118, R119). -/
def countResidue (n0 : Nat) (s : State) : State := { s with tbits := s.tbits + BitVec.ofNat 64 (8 * n0) }

/-- Step 4 of FINAL: the big-endian length field (R117). -/
def lengthField (s : State) : State := { s with pbuf := writeLength s.tbits s.pbuf }

/-- FINAL's last writes: PLEN and PHASE (R118). -/
def closeContext (s : State) : State := { s with plen := 0#6, phase := .finalized }

/-- Steps 1 to 5 of FINAL and its last writes, in order (R118). -/
def finish (s : State) : State :=
  let n0 := s.plen.toNat
  closeContext (runTransform (lengthField (countResidue n0 (padFill (n0 + 1) (padMarker s)))))

/-- FINAL (R118), behind the phase gate (60_exceptions.md R139). -/
def execFinal (data : Word) (s : State) : Host.Outcome State Fault Refusal :=
  if s.phase = .faulted then .next s
  else if s.phase ≠ .active then .next (takeFault .notActive (encode (.final data)) s)
  else .next (finish s)

end Sys2Proof.Machine
end

