-- ==== Sys2Proof/Machine/Dispatch.lean ====
section
/-! DEFINITION. One arm per command (30_encoding.md R62). -/

namespace Sys2Proof.Machine

def exec (i : Instr) (s : State) : Host.Outcome State Fault Refusal :=
  match i with
  | .nop data => Sys2Proof.Machine.execNop data s
  | .init data => Sys2Proof.Machine.execInit data s
  | .update cnt data => Sys2Proof.Machine.execUpdate cnt data s
  | .final data => Sys2Proof.Machine.execFinal data s

end Sys2Proof.Machine
end

