-- ==== Sys2Proof/Machine/Port.lean ====
section
/-! DEFINITION. The command port: accepting a beat (60_exceptions.md R139) and the host's moves
(30_encoding.md R72; 70_reset_and_hazards.md R155, R166). -/

namespace Sys2Proof.Machine

/-- An outcome with its next state changed; a stop stays as it is. -/
def mapNext (f : State → State) : Host.Outcome State Fault Refusal → Host.Outcome State Fault Refusal
  | .next s => .next (f s)
  | .fault r => .fault r
  | .refused r => .refused r

/-- ACCEPT(c): discard in FAULTED; then decode; an illegal beat faults; a command executes, and checks its own
phase (R139, R140). -/
def acceptBeat (c : Beat) (s : State) : Host.Outcome State Fault Refusal :=
  if s.phase = .faulted then .next s
  else
    match decode c with
    | .error cause => .next (takeFault cause c s)
    | .ok i => exec i s

/-- The state in which the block executes a beat it has just accepted: the move is used up and the beat is in
the command log (70_reset_and_hazards.md R165). -/
def logged (c : Beat) (rest : List HostMove) (s : State) : State :=
  { s with inbox := rest, log := s.log ++ [c] }

/-- A beat is offered. With cmd_ready = 0 it is not accepted and stays offered, the block completing the command
in progress; with cmd_ready = 1 it is accepted, executed as one atomic transition, and BUSY is 0 again at its end
(30_encoding.md R72; 20_memory.md R51, R52). -/
def moveIssue (c : Beat) (whileBusy : List ReadPort) (rest : List HostMove) (s : State) :
    Host.Outcome State Fault Refusal :=
  if cmdReady s then mapNext (serveWhileBusy whileBusy) (acceptBeat c (logged c rest s))
  else .next { s with busy := false }

/-- A read of a port (10_state.md R33, R35). -/
def moveRead (port : ReadPort) (rest : List HostMove) (s : State) : Host.Outcome State Fault Refusal :=
  .next (serveRead port { s with inbox := rest })

/-- No beat is offered: no state changes, but for a command in progress, which completes (60_exceptions.md R150;
70_reset_and_hazards.md R164). -/
def moveIdle (rest : List HostMove) (s : State) : Host.Outcome State Fault Refusal :=
  .next { s with inbox := rest, busy := false }

/-- rst = 1 and its release. While it is held cmd_ready = 0, so BUSY = 1 for a read made then (R155; log
entry 5). -/
def moveReset (whileHeld : List ReadPort) (rest : List HostMove) (s : State) : Host.Outcome State Fault Refusal :=
  .next (serveWhileBusy whileHeld (resetBlock { s with inbox := rest }))

/-- One move of the host, or none (R166). -/
def takeMove (s : State) : Host.Outcome State Fault Refusal :=
  match s.inbox with
  | [] => moveIdle [] s
  | .issue c whileBusy :: rest => moveIssue c whileBusy rest s
  | .read port :: rest => moveRead port rest s
  | .idle :: rest => moveIdle rest s
  | .reset whileHeld :: rest => moveReset whileHeld rest s

/-- The start of a step: the host has taken what the step before gave back. -/
def beginStep (s : State) : State := { s with readings := [] }

/-- Offer a beat as the host's very next move, to a block that is ready. -/
def offerBeat (c : Beat) (s : State) : State := { s with inbox := .issue c [] :: s.inbox, busy := false }

end Sys2Proof.Machine
end

