-- ==== Sys2Proof/Machine/Step.lean ====
section
/-! DEFINITION. One step: the host's next move and the block's answer to it. There is no program counter and no
fetch (10_state.md R28; 20_memory.md R54): commands are the beats the host offers. -/

namespace Sys2Proof.Machine

/-- One atomic transition (20_memory.md R51; 70_reset_and_hazards.md R159). -/
def step (s : State) : Host.Outcome State Fault Refusal := takeMove (beginStep s)

/-- The state whose very next step accepts the beat of an opcode-table word (log entry 2). -/
def State.withFetchWord (s : State) (nbits w : Nat) : State := offerBeat (tableBeat nbits w) s

end Sys2Proof.Machine
end

