-- ==== Sys2Proof/Machine/Assembler.lean ====
section
/-! DEFINITION. The assembler notation and the pseudo-instructions (30_encoding.md R74, R75). It is a notation
for beats; the machine does not use it. -/

namespace Sys2Proof.Machine

/-- One command of assembler source. -/
inductive AsmLine
  | nop
  | init
  | update (cnt : Nat) (data : Word)
  | final
  | updateB (b : Byte)
  | updateW (w : Word)
  | updateEmpty
  | push (bytes : List Byte)
  | hash (bytes : List Byte)
deriving DecidableEq, Repr

/-- `PUSH <bytes>`: full beats of four bytes, then one left-justified beat with the remainder (R75). -/
def pushBytes : List Byte → List Instr
  | [] => []
  | [a] => [.update 1#3 (be32 a 0 0 0)]
  | [a, b] => [.update 2#3 (be32 a b 0 0)]
  | [a, b, c] => [.update 3#3 (be32 a b c 0)]
  | a :: b :: c :: d :: rest => .update 4#3 (be32 a b c d) :: pushBytes rest

/-- `HASH <bytes>`: `INIT; PUSH <bytes>; FINAL` (R75). -/
def hashBytes (bytes : List Byte) : List Instr := .init 0#32 :: pushBytes bytes ++ [.final 0#32]

/-- The commands of a line; none where the assembler rejects it (R74, R75). -/
def assemble : AsmLine → Option (List Instr)
  | .nop => some [.nop 0#32]
  | .init => some [.init 0#32]
  | .update cnt data => if cnt ≤ 4 then some [.update (BitVec.ofNat 3 cnt) data] else none
  | .final => some [.final 0#32]
  | .updateB b => some [.update 1#3 (b.setWidth 32 <<< 24)]
  | .updateW w => some [.update 4#3 w]
  | .updateEmpty => some [.update 0#3 0#32]
  | .push bytes => some (pushBytes bytes)
  | .hash bytes => some (hashBytes bytes)

/-- The words of a line up to its comment; a comma is a word of its own (R74). -/
def asmTokens (line : List Char) : List (List Char) :=
  let flush (word : List Char) (out : List (List Char)) := if word = [] then out else out ++ [word]
  let scan (acc : List Char × List (List Char)) (ch : Char) :=
    if ch = ',' then ([], flush acc.1 acc.2 ++ [[ch]])
    else if ch = ' ' ∨ ch = '\t' then ([], flush acc.1 acc.2)
    else (acc.1 ++ [ch], acc.2)
  let last := (line.takeWhile (· ≠ ';')).foldl scan ([], [])
  flush last.1 last.2

/-- The value of a digit below `base`. -/
def digitValue (base : Nat) (ch : Char) : Option Nat :=
  let n := ch.toNat
  let v := if 48 ≤ n ∧ n ≤ 57 then some (n - 48)
    else if 65 ≤ n ∧ n ≤ 70 then some (n - 55)
    else if 97 ≤ n ∧ n ≤ 102 then some (n - 87)
    else none
  v.bind fun d => if d < base then some d else none

/-- The number a word of digits stands for, none where a character is no digit. -/
def digitsValue (base : Nat) (word : List Char) : Option Nat :=
  word.foldl (fun acc ch => acc.bind fun n => (digitValue base ch).map (n * base + ·)) (some 0)

/-- A decimal count. -/
def countLiteral (word : List Char) : Option Nat := if word = [] then none else digitsValue 10 word

/-- A hex literal `0x…` below `2^bits` (R74). -/
def hexLiteral (bits : Nat) (word : List Char) : Option Nat :=
  match word with
  | '0' :: x :: d :: ds =>
    if x = 'x' ∨ x = 'X' then
      (digitsValue 16 (d :: ds)).bind fun n => if n < 2 ^ bits then some n else none
    else none
  | _ => none

/-- A space or a tab. -/
def isBlank (ch : Char) : Bool := ch = ' ' ∨ ch = '\t'

/-- The double quote. -/
def quoteMark : Char := Char.ofNat 34

/-- A string literal and nothing after it but blanks or a comment: "A string literal stands for its ASCII bytes"
(R75). -/
def stringLiteral (text : List Char) : Option (List Byte) :=
  match text.dropWhile isBlank with
  | [] => none
  | q :: body =>
    let chars := body.takeWhile (· ≠ quoteMark)
    match body.dropWhile (· ≠ quoteMark) with
    | [] => none
    | _ :: after =>
      if q = quoteMark ∧ asmTokens after = [] ∧ chars.all (·.toNat < 128) then
        some (chars.map fun ch => BitVec.ofNat 8 ch.toNat)
      else none

/-- One line of assembler source. `none`: rejected; `some none`: no command (blank or comment). Mnemonics are
case-insensitive, and NOP, INIT and FINAL take no operand (R74). PUSH and HASH take a string literal; the spec
does not fix how another byte list is written (log entry 9). -/
def parseLine (line : List Char) : Option (Option AsmLine) :=
  let operand := (line.dropWhile isBlank).dropWhile fun ch => !isBlank ch && ch != ',' && ch != ';'
  match asmTokens line with
  | [] => some none
  | m :: args =>
    let name := m.map Char.toUpper
    if name = ['N', 'O', 'P'] then if args = [] then some (some .nop) else none
    else if name = ['I', 'N', 'I', 'T'] then if args = [] then some (some .init) else none
    else if name = ['F', 'I', 'N', 'A', 'L'] then if args = [] then some (some .final) else none
    else if name = ['U', 'P', 'D', 'A', 'T', 'E'] then
      match args with
      | [cnt, [','], data] =>
        (countLiteral cnt).bind fun n => (hexLiteral 32 data).map fun w => some (.update n (BitVec.ofNat 32 w))
      | _ => none
    else if name = ['U', 'P', 'D', 'A', 'T', 'E', '.', 'B'] then
      match args with
      | [b] => (hexLiteral 8 b).map fun v => some (.updateB (BitVec.ofNat 8 v))
      | _ => none
    else if name = ['U', 'P', 'D', 'A', 'T', 'E', '.', 'W'] then
      match args with
      | [w] => (hexLiteral 32 w).map fun v => some (.updateW (BitVec.ofNat 32 v))
      | _ => none
    else if name = ['U', 'P', 'D', 'A', 'T', 'E', '.', 'E', 'M', 'P', 'T', 'Y'] then
      if args = [] then some (some .updateEmpty) else none
    else if name = ['P', 'U', 'S', 'H'] then (stringLiteral operand).map fun x => some (.push x)
    else if name = ['H', 'A', 'S', 'H'] then (stringLiteral operand).map fun x => some (.hash x)
    else none

end Sys2Proof.Machine
end

