-- ==== Sys2Proof/Machine/Latency.lean ====
section
/-! DEFINITION. How many block transforms a command runs, and the open latencies that depend on it
(00_scope.md R7; 70_reset_and_hazards.md R164). A step carries no time and reads none of this. -/

namespace Sys2Proof.Machine

/-- The number k of transforms a command runs: 0 or 1 for UPDATE (42_stream.md R112), 1 or 2 for FINAL (R116),
none for NOP and INIT, and none outside ACTIVE (60_exceptions.md R139) or for an illegal count. -/
def transformsRun (i : Instr) (s : State) : Nat :=
  if s.phase ≠ .active then 0
  else
    match i with
    | .nop _ => 0
    | .init _ => 0
    | .update cnt _ => if cnt.toNat ≤ 4 ∧ 64 ≤ s.plen.toNat + cnt.toNat then 1 else 0
    | .final _ => if s.plen.toNat ≤ 55 then 1 else 2

/-- The cycles from acceptance of a command until the block is ready again, in the open parameters (R7). DESIGN CHOICE
(log entry 16): a command that is discarded or faults runs no transform and is charged its own latency at k = 0. For
UPDATE the spec gives that k; for FINAL it gives k = 1 and 2 only, so `lat.final 0` is the model's. -/
def commandCycles (lat : Config.Latencies) (i : Instr) (s : State) : Nat :=
  match i with
  | .nop _ => lat.nop
  | .init _ => lat.init
  | .update _ _ => lat.update (transformsRun i s)
  | .final _ => lat.final (transformsRun i s)

end Sys2Proof.Machine
end

