-- ==== Sys2Proof/Machine/Platform.lean ====
section
/-! DEFINITION. A platform of `n` independent instances, `n` being the open parameter N_INSTANCES
(00_scope.md R7; 10_state.md R41; 60_exceptions.md R148). -/

namespace Sys2Proof.Machine

/-- A platform: one state per instance, nothing shared but the hardwired constants (R41). -/
abbrev Platform (n : Nat) := Vector State n

/-- Every instance starts in UNINIT at its own reset (R148). -/
def platformReset (n : Nat) : Platform n := Vector.replicate n State.reset

/-- One step of instance `k`. -/
def platformStep {n : Nat} (k : Fin n) (p : Platform n) : Host.Outcome (Platform n) Fault Refusal :=
  match step p[k] with
  | .next s => .next (p.set k s)
  | .fault r => .fault r
  | .refused r => .refused r

end Sys2Proof.Machine
end

