-- ==== Sys2Proof/Machine/Window.lean ====
section
/-! DEFINITION. The equivalent design an implementation may use for the block transform: a 16-word window for the
schedule and the shorter forms of Ch and Maj (41_transform.md R100; 10_state.md R37). The machine itself uses
Machine/Transform.lean; that the two agree is an obligation. -/

namespace Sys2Proof.Machine

/-- `d XOR (b AND (c XOR d))` (R100). -/
def chShort (b c d : Word) : Word := d ^^^ (b &&& (c ^^^ d))

/-- `(b AND c) OR (d AND (b OR c))` (R100). -/
def majShort (b c d : Word) : Word := (b &&& c) ||| (d &&& (b ||| c))

/-- The mixing function with the shorter forms. -/
def mixShort (t : Nat) (b c d : Word) : Word :=
  if t < 20 then chShort b c d
  else if t < 40 then parity b c d
  else if t < 60 then majShort b c d
  else parity b c d

/-- The window after round t's word has taken its place `w[t mod 16]`; for t < 16 it is there already (R100). -/
def slideWindow (t : Nat) (w : Vector Word 16) : Vector Word 16 :=
  if t < 16 then w
  else
    w.set (t % 16)
      (rotl32 (w[(t - 3) % 16] ^^^ w[(t - 8) % 16] ^^^ w[(t - 14) % 16] ^^^ w[(t - 16) % 16]) 1)

/-- The window and the working variables after `n` rounds. -/
def windowRounds (block : Block) (s : HashState) : Nat → Vector Word 16 × Working
  | 0 => (Vector.ofFn (messageWord block), loadWorking s)
  | t + 1 =>
    let w := slideWindow t (windowRounds block s t).1
    let v := (windowRounds block s t).2
    (w,
      { a := rotl32 v.a 5 + mixShort t v.b v.c v.d + v.e + roundConstant t + w[t % 16]
        b := v.a
        c := rotl32 v.b 30
        d := v.c
        e := v.d })

/-- The block transform of the windowed design. -/
def windowTransform (s : HashState) (block : Block) : HashState :=
  feedForward s (windowRounds block s 80).2

end Sys2Proof.Machine
end

