-- ==== Sys2Proof/Safety.lean ====
section
/-! DEFINITION. The terms claims use: the launch premises and the end of a run (70_reset_and_hazards.md R165,
R167), the lifecycle table (42_stream.md R121), the padded message and its digest (R127), the invariants between
commands (10_state.md R38), and which states the spec cannot tell apart (R36, R40). -/

namespace Sys2Proof.Safety

open Sys2Proof.Machine

/-! ### Lifecycle -/

/-- The cause an accepted beat faults with, from PHASE before it and its decoding; none where it does not fault.
In FAULTED nothing faults (60_exceptions.md R139, R140; 42_stream.md R121). -/
def faultOf : Phase → Except Cause Instr → Option Cause
  | .faulted, _ => none
  | .uninit, .error x => some x
  | .active, .error x => some x
  | .finalized, .error x => some x
  | .active, .ok _ => none
  | .uninit, .ok (.update _ _) => some .notActive
  | .uninit, .ok (.final _) => some .notActive
  | .uninit, .ok (.nop _) => none
  | .uninit, .ok (.init _) => none
  | .finalized, .ok (.update _ _) => some .notActive
  | .finalized, .ok (.final _) => some .notActive
  | .finalized, .ok (.nop _) => none
  | .finalized, .ok (.init _) => none

/-- The transition table: rows PHASE before, columns the decoded command (42_stream.md R121). -/
def lifecycle : Phase → Except Cause Instr → Phase
  | .uninit, .ok (.nop _) => .uninit
  | .uninit, .ok (.init _) => .active
  | .uninit, .ok (.update _ _) => .faulted
  | .uninit, .ok (.final _) => .faulted
  | .uninit, .error _ => .faulted
  | .active, .ok (.nop _) => .active
  | .active, .ok (.init _) => .active
  | .active, .ok (.update _ _) => .active
  | .active, .ok (.final _) => .finalized
  | .active, .error _ => .faulted
  | .finalized, .ok (.nop _) => .finalized
  | .finalized, .ok (.init _) => .active
  | .finalized, .ok (.update _ _) => .faulted
  | .finalized, .ok (.final _) => .faulted
  | .finalized, .error _ => .faulted
  | .faulted, .ok (.nop _) => .faulted
  | .faulted, .ok (.init _) => .faulted
  | .faulted, .ok (.update _ _) => .faulted
  | .faulted, .ok (.final _) => .faulted
  | .faulted, .error _ => .faulted

/-! ### Messages, padding and the digest -/

/-- The message after one more accepted beat: INIT starts an empty one, UPDATE appends its bytes. -/
def messageStep (m : List Byte) (c : Beat) : List Byte :=
  match decode c with
  | .error _ => m
  | .ok (.nop _) => m
  | .ok (.init _) => []
  | .ok (.update cnt data) => m ++ updateBytes cnt data
  | .ok (.final _) => m

/-- The message bytes accepted by UPDATEs since the last INIT of a fault-free command log (10_state.md R38). -/
def messageOf (log : List Beat) : List Byte := log.foldl messageStep []

/-- The 8 bytes `be64bytes(v)` (00_scope.md R9). -/
def be64bytes (v : BitVec 64) : List Byte := (List.range 8).map (be64byte v)

/-- `k`, the number of zero bytes of the padding of an `n`-byte message (42_stream.md R127). -/
def padZeros (n : Nat) : Nat := (119 - n % 64) % 64

/-- `0x80`, then `k` zero bytes, then a 64-bit length field (42_stream.md R127). -/
def padding (n : Nat) (bits : BitVec 64) : List Byte :=
  [0x80#8] ++ List.replicate (padZeros n) 0#8 ++ be64bytes bits

/-- The padded message: M, its padding, and `be64bytes((8 × N) mod 2^64)` (42_stream.md R127). -/
def paddedMessage (m : List Byte) : List Byte := m ++ padding m.length (BitVec.ofNat 64 (8 * m.length))

/-- The complete 64-byte blocks of a byte sequence, in order; a shorter tail is left out. -/
def blocksOf (bytes : List Byte) : List Block :=
  (List.range (bytes.length / 64)).map fun q => Vector.ofFn fun k : Fin 64 => bytes.getD (64 * q + k.val) 0#8

/-- The running state after a list of blocks (41_transform.md R98). -/
def absorb (s : HashState) (blocks : List Block) : HashState := blocks.foldl transform s

/-- The digest the rules give for a message, as H[0..4] (42_stream.md R127; 41_transform.md R98). -/
def hashOf (m : List Byte) : HashState := absorb iv (blocksOf (paddedMessage m))

/-- The blocks a command's transforms consume, written from the buffered bytes (42_stream.md R112, R116, R127). -/
def blocksConsumed (i : Instr) (s : State) : List Block :=
  if s.phase ≠ .active then []
  else
    match i with
    | .nop _ => []
    | .init _ => []
    | .update cnt data => if cnt.toNat ≤ 4 then blocksOf (pending s ++ updateBytes cnt data) else []
    | .final _ =>
      blocksOf (pending s ++ padding s.plen.toNat (s.tbits + BitVec.ofNat 64 (8 * s.plen.toNat)))

/-! ### Runs of commands -/

/-- A command sequence executed one command after another, stopping at the first stop. -/
def runInstrs : List Instr → State → Host.Outcome State Fault Refusal
  | [], s => .next s
  | i :: is, s =>
    match exec i s with
    | .next t => runInstrs is t
    | .fault r => .fault r
    | .refused r => .refused r

/-- The blocks all the transforms of a command sequence consume, in order (42_stream.md R127). -/
def runBlocks : List Instr → State → List Block
  | [], _ => []
  | i :: is, s =>
    match exec i s with
    | .next t => blocksConsumed i s ++ runBlocks is t
    | .fault _ => []
    | .refused _ => []

/-- The byte sequence a command carries into the stream: UPDATE's operand, nothing for NOP; none for a command
that is no part of a stream of UPDATEs and NOPs (42_stream.md R123). -/
def streamBytes : Instr → Option (List Byte)
  | .nop _ => some []
  | .update cnt data => if cnt.toNat ≤ 4 then some (updateBytes cnt data) else none
  | .init _ => none
  | .final _ => none

/-- The concatenated byte sequence of a list of UPDATEs and NOPs. -/
def streamOf : List Instr → Option (List Byte)
  | [] => some []
  | i :: is =>
    match streamBytes i, streamOf is with
    | some x, some y => some (x ++ y)
    | _, _ => none

/-- Host moves that offer beats one after another and read nothing. -/
def issueAll (beats : List Beat) : List HostMove := beats.map fun c => .issue c []

/-! ### Launch premises and the end of a run (70_reset_and_hazards.md R165, R167) -/

/-- `CleanStart`: the run starts at reset, PHASE = UNINIT, FCAUSE = NONE, the fault record and the command log
are empty, and the block is ready. Nothing is said of H, PBUF, PLEN or TBITS. -/
def CleanStart (s : State) : Prop :=
  s.phase = .uninit ∧ s.fcause = 0#4 ∧ s.busy = false ∧ s.faultRecord = [] ∧ s.log = []

/-- `NoFault`: the model fault record is empty. -/
def NoFault (s : State) : Prop := s.faultRecord = []

/-- `Wellformed(log)` from a phase: every beat is legal and obeys the phase gate, so that no fault occurs. -/
def wellformedFrom : Phase → List Beat → Bool
  | _, [] => true
  | p, c :: cs =>
    decide (p ≠ .faulted) && (faultOf p (decode c)).isNone && wellformedFrom (lifecycle p (decode c)) cs

/-- `LengthInContract(N)`: 8 × N < 2^64. -/
def LengthInContract (n : Nat) : Prop := 8 * n < 2 ^ 64

/-- The beats of this run still to come: those the host offers before the next reset, which begins another run. Idle
cycles and reads are no beats (R165, R166). -/
def beatsToCome : List HostMove → List Beat
  | [] => []
  | .issue c _ :: rest => c :: beatsToCome rest
  | .read _ :: rest => beatsToCome rest
  | .idle :: rest => beatsToCome rest
  | .reset _ :: _ => []

/-- A run ends when no beat of it is left to accept and BUSY = 0, whatever reads, idle cycles or reset follow (R165). -/
def RunEnded (s : State) : Prop := beatsToCome s.inbox = [] ∧ s.busy = false

/-- The observation of an ended run: (STATUS, DIGEST), DIGEST only with DIGEST_VALID = 1; a faulted run has none
(R165). -/
def observation (s : State) : Option (BitVec 32 × Option (BitVec 160)) :=
  if s.phase = .faulted ∨ s.faultRecord ≠ [] then none
  else some (statusWord s, if digestValid s then some (digestWord s.h) else none)

/-! ### Invariants between commands -/

/-- PHASE, FCAUSE and the fault record fit: outside FAULTED there is no fault and FCAUSE = NONE; in FAULTED there
is exactly one record, the first, FCAUSE is its code, its beat was accepted and its cause is the one that beat has
in the phase recorded (10_state.md R32; 60_exceptions.md R136, R137, R142). -/
def FaultCoherent (s : State) : Prop :=
  (s.phase ≠ .faulted ∧ s.faultRecord = [] ∧ s.fcause = 0#4) ∨
  (s.phase = .faulted ∧ ∃ e, s.faultRecord = [e] ∧ s.fcause = e.cause.code ∧ e.beat ∈ s.log ∧
    faultOf e.phaseBefore (decode e.beat) = some e.cause)

/-- What holds in ACTIVE of the N message bytes accepted since INIT (10_state.md R38, items 2 and 3), and that H
is the IV folded over their complete blocks. -/
def ActiveContext (m : List Byte) (s : State) : Prop :=
  s.plen.toNat = m.length % 64 ∧
  s.tbits = BitVec.ofNat 64 (8 * (m.length - s.plen.toNat)) ∧
  pending s = m.drop (m.length - s.plen.toNat) ∧
  s.h = absorb iv (blocksOf m)

/-- What holds in FINALIZED (10_state.md R38, item 4; 42_stream.md R118). -/
def FinalizedContext (m : List Byte) (s : State) : Prop :=
  s.plen = 0#6 ∧ s.tbits = BitVec.ofNat 64 (8 * m.length) ∧ s.h = hashOf m

/-- The stream invariant: the context registers hold what the accepted message gives (R38). -/
def StreamInv (s : State) : Prop :=
  (s.phase = .active → ActiveContext (messageOf s.log) s) ∧
  (s.phase = .finalized → FinalizedContext (messageOf s.log) s)

/-! ### Frames -/

/-- The block's six registers are unchanged (10_state.md R20). -/
def SameRegisters (s t : State) : Prop :=
  t.h = s.h ∧ t.pbuf = s.pbuf ∧ t.plen = s.plen ∧ t.tbits = s.tbits ∧ t.phase = s.phase ∧ t.fcause = s.fcause

/-- Everything but H, PBUF, PLEN, TBITS and PHASE is unchanged: FCAUSE, BUSY, the two records and the host's
side of the ports. -/
def SameBeyondContext (s t : State) : Prop :=
  t.fcause = s.fcause ∧ t.busy = s.busy ∧ t.faultRecord = s.faultRecord ∧ t.log = s.log ∧
  t.inbox = s.inbox ∧ t.readings = s.readings ∧ t.draws = s.draws

/-! ### What the spec cannot tell apart -/

/-- Two states that differ only in values the spec leaves unspecified or calls hidden: H, PLEN, TBITS and PBUF in
UNINIT and FAULTED, PBUF, PLEN and TBITS in FINALIZED, and the stale bytes at and above PLEN in ACTIVE
(10_state.md R34, R36, R40; 92_eei_decisions.md D17, D32). -/
structure Indistinct (s t : State) : Prop where
  phase : s.phase = t.phase
  fcause : s.fcause = t.fcause
  busy : s.busy = t.busy
  faultRecord : s.faultRecord = t.faultRecord
  log : s.log = t.log
  inbox : s.inbox = t.inbox
  readings : s.readings = t.readings
  draws : s.draws = t.draws
  active : s.phase = .active → s.h = t.h ∧ s.plen = t.plen ∧ s.tbits = t.tbits ∧ pending s = pending t
  finalized : s.phase = .finalized → s.h = t.h

end Sys2Proof.Safety
end

