-- ==== Sys2Proof/Certificates/Slice0/Obligations.lean ====
section
/-! DEFINITION. The statements for the provers. Each docstring names the rule of spec/ it formalises. -/

open Sys2Proof Sys2Proof.Machine Sys2Proof.Safety Host

/-! ### Encoding -/

/-- 30_encoding.md R69 and R63: the decoder reads back every well-formed command from its beat. -/
def Obligations.DecodeOfEncode : Prop :=
  ∀ i : Instr, i.wellFormed = true → decode (encode i) = .ok i

/-- 30_encoding.md R63, "Each legal beat matches exactly one row": a beat the decoder accepts is the beat of the
well-formed command it reads, so no bit of it is dropped. -/
def Obligations.EncodeOfDecode : Prop :=
  ∀ (c : Beat) (i : Instr), decode c = .ok i → i.wellFormed = true ∧ encode i = c

/-- 30_encoding.md R68: exactly these beats are illegal, each with its cause, over all beats. -/
def Obligations.DecodeRejectsExactlyTheReserved : Prop :=
  ∀ c : Beat,
    (decode c = .error .reservedOpcode ↔ 4 ≤ (opcField c).toNat) ∧
    (decode c = .error .reservedField ↔
      (opcField c).toNat < 4 ∧ (rsvField c = 1#1 ∨ (opcField c ≠ 2#4 ∧ cntField c ≠ 0#3))) ∧
    (decode c = .error .badCount ↔
      opcField c = 2#4 ∧ rsvField c = 0#1 ∧ 5 ≤ (cntField c).toNat) ∧
    decode c ≠ .error .notActive

/-- 30_encoding.md R76: each worked source line assembles to its beat, and the beats decode to their commands or to
their causes. -/
def Obligations.WorkedEncodingsDecode : Prop :=
  ([.nop, .init, .update 3 0x61626300#32, .update 4 0x61626364#32, .updateB 0x80#8, .update 0 0x00000000#32,
    .final].map fun line => (assemble line).map (·.map encode)) =
    [some [0x0000000000#40], some [0x1000000000#40], some [0x2661626300#40], some [0x2861626364#40],
     some [0x2280000000#40], some [0x2000000000#40], some [0x3000000000#40]] ∧
  decode 0x0000000000#40 = .ok (.nop 0#32) ∧
  decode 0x1000000000#40 = .ok (.init 0#32) ∧
  decode 0x2661626300#40 = .ok (.update 3#3 0x61626300#32) ∧
  decode 0x2861626364#40 = .ok (.update 4#3 0x61626364#32) ∧
  decode 0x2280000000#40 = .ok (.update 1#3 0x80000000#32) ∧
  decode 0x2000000000#40 = .ok (.update 0#3 0#32) ∧
  decode 0x3000000000#40 = .ok (.final 0#32) ∧
  decode 0x5000000000#40 = .error .reservedOpcode ∧
  decode 0x2A00000000#40 = .error .badCount ∧
  decode 0x1100000000#40 = .error .reservedField

/-- 30_encoding.md R75 and R62: PUSH of L bytes is ceil(L/4) well-formed UPDATEs whose byte sequences
concatenate to those bytes. -/
def Obligations.PushCarriesItsBytes : Prop :=
  ∀ m : List Byte,
    streamOf (pushBytes m) = some m ∧
    (pushBytes m).length = (m.length + 3) / 4 ∧
    ∀ i ∈ pushBytes m, i.wellFormed = true

/-- 30_encoding.md R75: UPDATE.B carries its byte, UPDATE.W the four bytes of its word, most significant first, and
UPDATE.EMPTY none. -/
def Obligations.PseudoUpdatesCarryTheirBytes : Prop :=
  ∀ (b : Byte) (w : Word),
    (assemble (.updateB b)).bind streamOf = some [b] ∧
    (assemble (.updateW w)).bind streamOf =
      some [w.extractLsb' 24 8, w.extractLsb' 16 8, w.extractLsb' 8 8, w.extractLsb' 0 8] ∧
    (assemble .updateEmpty).bind streamOf = some []

/-- 30_encoding.md section 7: the assembler rejects an UPDATE exactly when its count is above 4, and every command
of a line it accepts has a legal beat. -/
def Obligations.AssembledCommandsAreWellFormed : Prop :=
  (∀ (cnt : Nat) (data : Word), assemble (.update cnt data) = none ↔ 4 < cnt) ∧
  ∀ (line : AsmLine) (is : List Instr), assemble line = some is → ∀ i ∈ is, i.wellFormed = true

/-! ### The block transform -/

/-- 41_transform.md R91: the 80 words of the schedule, from the block's bytes and by the recurrence. -/
def Obligations.ScheduleFollowsRecurrence : Prop :=
  ∀ b : Block,
    (schedule b).length = 80 ∧
    (∀ t : Fin 16, scheduleWord b t.val =
      be32 b[4 * t.val] b[4 * t.val + 1] b[4 * t.val + 2] b[4 * t.val + 3]) ∧
    (∀ t, 16 ≤ t → t < 80 → scheduleWord b t =
      rotl32 (scheduleWord b (t - 3) ^^^ scheduleWord b (t - 8) ^^^ scheduleWord b (t - 14) ^^^
        scheduleWord b (t - 16)) 1)

/-- 41_transform.md R92 and R93: the mixing function and the round constant of each quadrant. -/
def Obligations.QuadrantFunctionsAndConstants : Prop :=
  ∀ (t : Nat) (b c d : Word), t < 80 →
    mix t b c d =
      (if t / 20 = 0 then (b &&& c) ||| (~~~b &&& d)
       else if t / 20 = 2 then (b &&& c) ||| (b &&& d) ||| (c &&& d)
       else b ^^^ c ^^^ d) ∧
    some (roundConstant t) =
      [0x5A827999#32, 0x6ED9EBA1#32, 0x8F1BBCDC#32, 0xCA62C1D6#32][t / 20]?

/-- 41_transform.md R94, R95, R96 and R98: some sequence of working variables starts at the state, follows the
round rule for t = 0 .. 79 and ends in the feed-forward that TRANSFORM returns. -/
def Obligations.TransformRunsEightyRounds : Prop :=
  ∀ (s : HashState) (b : Block), ∃ v : Nat → Working,
    v 0 = ⟨s[0], s[1], s[2], s[3], s[4]⟩ ∧
    (∀ t, t < 80 → v (t + 1) =
      { a := rotl32 (v t).a 5 + mix t (v t).b (v t).c (v t).d + (v t).e + roundConstant t + scheduleWord b t
        b := (v t).a
        c := rotl32 (v t).b 30
        d := (v t).c
        e := (v t).d }) ∧
    transform s b =
      #v[s[0] + (v 80).a, s[1] + (v 80).b, s[2] + (v 80).c, s[3] + (v 80).d, s[4] + (v 80).e]

/-- 00_scope.md R9 and 41_transform.md R97, "The rotations are rotations, not shifts: no bit is lost": bit by
bit, for every rotation amount. -/
def Obligations.RotationMovesEveryBit : Prop :=
  ∀ (x : Word) (n i : Nat), 1 ≤ n → n ≤ 31 → i < 32 →
    (rotl32 x n).getLsbD ((i + n) % 32) = x.getLsbD i

/-- 41_transform.md R99, on Ch, Maj and Parity, and the rotation by 30. -/
def Obligations.MixingCornerCases : Prop :=
  ∀ x y z : Word,
    ch 0x00000000#32 y z = z ∧ ch 0xFFFFFFFF#32 y z = y ∧
    maj x x z = x ∧ maj x z x = x ∧ maj z x x = x ∧
    parity x x x = x ∧
    rotl32 x 30 = x.rotateRight 2

/-- 41_transform.md R100: the equivalent forms of Ch and Maj. -/
def Obligations.EquivalentChoiceAndMajority : Prop :=
  ∀ b c d : Word,
    ch b c d = (b &&& c) ^^^ (~~~b &&& d) ∧ ch b c d = chShort b c d ∧
    maj b c d = (b &&& c) ^^^ (b &&& d) ^^^ (c &&& d) ∧ maj b c d = majShort b c d

/-- 41_transform.md R100 and 10_state.md R37: the design with a 16-word window updated in place and the shorter
mixing forms computes the same transform, for every state and block. -/
def Obligations.WindowedDesignEqualsTransform : Prop :=
  ∀ (s : HashState) (b : Block), windowTransform s b = transform s b

/-! ### NOP and INIT -/

/-- 40_init.md R80: NOP completes and changes nothing, in every phase. -/
def Obligations.NopChangesNothing : Prop :=
  ∀ (data : Word) (s : State), exec (.nop data) s = .next s

/-- 40_init.md R82: INIT completes outside FAULTED, with the five IV words (10_state.md R22), PLEN = 0, TBITS = 0
and PHASE = ACTIVE, and writes nothing else, PBUF included. -/
def Obligations.InitStartsNewContext : Prop :=
  ∀ (data : Word) (s : State), s.phase ≠ .faulted →
    exec (.init data) s = .next { s with
      h := #v[0x67452301#32, 0xEFCDAB89#32, 0x98BADCFE#32, 0x10325476#32, 0xC3D2E1F0#32]
      plen := 0#6
      tbits := 0#64
      phase := .active }

/-! ### UPDATE -/

/-- 42_stream.md R111: APPEND(x), on the buffer bytes, PLEN, H and TBITS, and its frame. -/
def Obligations.AppendStoresOneByte : Prop :=
  ∀ (x : Byte) (s : State),
    let t := appendByte x s
    (∀ k : Fin 64, readPbuf t k = if k.val = s.plen.toNat then x else readPbuf s k) ∧
    (s.plen.toNat + 1 < 64 → t.plen.toNat = s.plen.toNat + 1 ∧ t.h = s.h ∧ t.tbits = s.tbits) ∧
    (s.plen.toNat + 1 = 64 → t.plen = 0#6 ∧ t.h = transform s.h t.pbuf ∧ t.tbits = s.tbits + 512#64) ∧
    t.phase = s.phase ∧ SameBeyondContext s t

/-- 20_memory.md R48: an UPDATE of any CNT (0..4) completes at any PLEN (0..63) in ACTIVE; its bytes go in one at
a time in stream order, the transform runs after the byte that makes the count 64, and the remaining bytes follow
from PBUF[0]. Frame: PHASE, FCAUSE and everything beyond the context are unchanged. -/
def Obligations.UpdateAppendsItsBytes : Prop :=
  ∀ (cnt : BitVec 3) (data : Word) (s : State), s.phase = .active → cnt.toNat ≤ 4 →
    let all := pending s ++ updateBytes cnt data
    ∃ t, exec (.update cnt data) s = .next t ∧
      (s.plen.toNat + cnt.toNat < 64 →
        t.h = s.h ∧ t.tbits = s.tbits ∧ t.plen.toNat = s.plen.toNat + cnt.toNat ∧ pending t = all) ∧
      (64 ≤ s.plen.toNat + cnt.toNat →
        t.tbits = s.tbits + 512#64 ∧ t.plen.toNat = s.plen.toNat + cnt.toNat - 64 ∧
        pending t = all.drop 64 ∧
        ∃ b : Block, b.toList = all.take 64 ∧ t.h = transform s.h b) ∧
      t.phase = .active ∧ SameBeyondContext s t

/-- Frame of UPDATE on PBUF (42_stream.md section 1; 20_memory.md section 1): byte j goes to the append address
after the j bytes before it, which is (PLEN + j) mod 64; every other byte of PBUF reads as before. -/
def Obligations.UpdateStoresOnlyAtAppendAddresses : Prop :=
  ∀ (cnt : BitVec 3) (data : Word) (s : State), s.phase = .active → cnt.toNat ≤ 4 →
    let address := fun j => appendAddress (appendBytes ((updateBytes cnt data).take j) s)
    (∀ j, j < cnt.toNat → address j = (s.plen.toNat + j) % 64) ∧
    ∃ t, exec (.update cnt data) s = .next t ∧
      (∀ k : Fin 64, (∀ j, j < cnt.toNat → k.val ≠ address j) → readPbuf t k = readPbuf s k) ∧
      (∀ (k : Fin 64) (j : Nat), j < cnt.toNat → k.val = address j → readPbuf t k = laneByte data j)

/-- 20_memory.md R47, the lanes: byte j of an UPDATE is DATA[31-8j : 24-8j] for j < CNT and nothing else of DATA
has an effect in ACTIVE. -/
def Obligations.UnusedLanesHaveNoEffect : Prop :=
  ∀ (cnt : BitVec 3) (d e : Word) (s : State), s.phase = .active → cnt.toNat ≤ 4 →
    (∀ j, j < cnt.toNat → d.extractLsb' (24 - 8 * j) 8 = e.extractLsb' (24 - 8 * j) 8) →
    exec (.update cnt d) s = exec (.update cnt e) s

/-- 20_memory.md R47, the mixed-width consequence: with PLEN a multiple of 4 and CNT = 4, the beat's DATA becomes
message word W[PLEN/4] of the block. -/
def Obligations.AlignedBeatIsMessageWord : Prop :=
  ∀ (data : Word) (s : State) (q : Fin 16), s.phase = .active → s.plen.toNat = 4 * q.val →
    ∃ t, exec (.update 4#3 data) s = .next t ∧ messageWord t.pbuf q = data ∧
      (q.val = 15 → t.h = transform s.h t.pbuf)

/-- 42_stream.md R123: two sequences of UPDATE and NOP beats that carry the same byte sequence, split in any two
ways, complete in the same state. -/
def Obligations.ChunkingInvariance : Prop :=
  ∀ (is js : List Instr) (x : List Byte) (s : State), s.phase = .active →
    streamOf is = some x → streamOf js = some x →
    ∃ t, runInstrs is s = .next t ∧ runInstrs js s = .next t

/-! ### FINAL -/

/-- 42_stream.md R116 and R117: FINAL completes in ACTIVE; with n0 ≤ 55 it runs one transform, with n0 ≥ 56 two;
the bytes of the padding block and of the length block are as the rules say, the length field being the new TBITS
in big-endian bytes. -/
def Obligations.FinalPadsAtThreshold : Prop :=
  ∀ (data : Word) (s : State), s.phase = .active →
    ∃ t, exec (.final data) s = .next t ∧
      (∀ k : Fin 8, t.pbuf[56 + k.val] = be64byte t.tbits k.val) ∧
      (s.plen.toNat ≤ 55 →
        t.h = transform s.h t.pbuf ∧
        ∀ k : Fin 64, k.val < 56 → readPbuf t k =
          if k.val < s.plen.toNat then readPbuf s k else if k.val = s.plen.toNat then 0x80#8 else 0x00#8) ∧
      (56 ≤ s.plen.toNat →
        ∃ b : Block,
          (∀ k : Fin 64, b[k] =
            if k.val < s.plen.toNat then readPbuf s k else if k.val = s.plen.toNat then 0x80#8 else 0x00#8) ∧
          t.h = transform (transform s.h b) t.pbuf ∧
          ∀ k : Fin 64, k.val < 56 → readPbuf t k = 0x00#8)

/-- The other writes of FINAL and its frame (42_stream.md section 2; PLEN = 0 is decision D18): TBITS grows by
8 × n0 and by nothing for the padding block, PLEN = 0, PHASE = FINALIZED, everything beyond the context is
unchanged. With n0 ≤ 55 the bytes below n0 are unchanged. -/
def Obligations.FinalClosesContext : Prop :=
  ∀ (data : Word) (s : State), s.phase = .active →
    ∃ t, exec (.final data) s = .next t ∧
      t.tbits = s.tbits + BitVec.ofNat 64 (8 * s.plen.toNat) ∧
      t.plen = 0#6 ∧ t.phase = .finalized ∧ SameBeyondContext s t ∧
      (∀ k : Fin 64, k.val < s.plen.toNat → s.plen.toNat ≤ 55 → readPbuf t k = readPbuf s k)

/-- The number of transforms a well-formed command other than INIT runs in ACTIVE is the k of its latency
(70_reset_and_hazards.md section 4; 42_stream.md sections 1 and 2), and H is H folded over the blocks of the buffered
bytes followed by an UPDATE's bytes or by FINAL's padding. -/
def Obligations.CommandsConsumeCountedBlocks : Prop :=
  ∀ (i : Instr) (s : State), s.phase = .active → i.wellFormed = true → (∀ d, i ≠ .init d) →
    (blocksConsumed i s).length = transformsRun i s ∧
    ∃ t, exec i s = .next t ∧ t.h = absorb s.h (blocksConsumed i s)

/-- 42_stream.md section 2, length accounting: where the context is that of the message accepted since INIT, the
length field FINAL writes is (8 × N) mod 2^64, whether or not a padding block was transformed. -/
def Obligations.LengthFieldCountsMessageBits : Prop :=
  ∀ (data : Word) (s : State), s.phase = .active → StreamInv s →
    ∃ t, exec (.final data) s = .next t ∧
      ∀ k : Fin 8, t.pbuf[56 + k.val] =
        be64byte (BitVec.ofNat 64 (8 * (messageOf s.log).length)) k.val

/-! ### Faults -/

/-- 60_exceptions.md R138: UPDATE and FINAL outside ACTIVE take NOT_ACTIVE, in UNINIT and in FINALIZED, whatever
the byte count: PHASE = FAULTED, FCAUSE = 4, the record holds the cause, the beat and the phase before; nothing else
changes. NOP and INIT never raise it. -/
def Obligations.StreamCommandsFaultOutsideActive : Prop :=
  (∀ (i : Instr) (s : State),
    (∃ cnt data, i = .update cnt data ∧ cnt.toNat ≤ 4) ∨ (∃ data, i = .final data) →
    s.phase = .uninit ∨ s.phase = .finalized →
    exec i s = .next { s with
      phase := .faulted
      fcause := 4#4
      faultRecord := s.faultRecord ++ [⟨.notActive, encode i, s.phase⟩] }) ∧
  (∀ (data : Word) (s : State), s.phase ≠ .faulted →
    ∃ t u, exec (.nop data) s = .next t ∧ exec (.init data) s = .next u ∧
      t.phase ≠ .faulted ∧ u.phase ≠ .faulted ∧
      t.faultRecord = s.faultRecord ∧ u.faultRecord = s.faultRecord)

/-- An UPDATE term with a count above 4 has no legal beat; the model faults it as its beat would (30_encoding.md
section 4; log entry 6): its beat decodes to BAD_COUNT, and outside FAULTED exec takes that fault. -/
def Obligations.IllFormedUpdateFaultsBadCount : Prop :=
  ∀ (cnt : BitVec 3) (data : Word) (s : State), 4 < cnt.toNat → s.phase ≠ .faulted →
    decode (encode (.update cnt data)) = .error .badCount ∧
    exec (.update cnt data) s = .next { s with
      phase := .faulted
      fcause := 3#4
      faultRecord := s.faultRecord ++ [⟨.badCount, encode (.update cnt data), s.phase⟩] }

/-- 60_exceptions.md R136: a beat that raises a fault, by its decoding or by its phase, writes PHASE and FCAUSE and
extends the fault record; H, PBUF, PLEN and TBITS keep the values they had before the beat. After it the block
keeps accepting beats, is ready again after each, and discards them. -/
def Obligations.FaultWritesPhaseAndCauseOnly : Prop :=
  ∀ (s : State) (c : Beat) (cause : Cause) (reads : List ReadPort) (rest : List HostMove),
    s.busy = false → s.inbox = .issue c reads :: rest → faultOf s.phase (decode c) = some cause →
    ∃ t, step s = .next t ∧
      t.phase = .faulted ∧ t.fcause = cause.code ∧
      t.faultRecord = s.faultRecord ++ [⟨cause, c, s.phase⟩] ∧
      t.h = s.h ∧ t.pbuf = s.pbuf ∧ t.plen = s.plen ∧ t.tbits = s.tbits ∧
      t.busy = false ∧ t.log = s.log ++ [c] ∧ t.inbox = rest ∧
      ∀ (d : Beat) (more : List ReadPort) (tail : List HostMove),
        ∃ u, step { t with inbox := .issue d more :: tail } = .next u ∧
          SameRegisters t u ∧ u.faultRecord = t.faultRecord ∧
          u.busy = false ∧ u.log = t.log ++ [d] ∧ u.inbox = tail

/-- 60_exceptions.md R140: of several conditions the first is reported, RESERVED_OPCODE, RESERVED_FIELD, BAD_COUNT,
NOT_ACTIVE; one beat raises at most one fault, and with no condition none is taken. -/
def Obligations.FirstCauseIsReported : Prop :=
  ∀ (s : State) (c : Beat) (reads : List ReadPort) (rest : List HostMove),
    s.busy = false → s.inbox = .issue c reads :: rest → s.phase ≠ .faulted →
    ∃ t, step s = .next t ∧ t.faultRecord.length ≤ s.faultRecord.length + 1 ∧
      (let reservedField := rsvField c = 1#1 ∨ (opcField c ≠ 2#4 ∧ cntField c ≠ 0#3)
       let badCount := opcField c = 2#4 ∧ 4 < (cntField c).toNat
       let notActive := (opcField c = 2#4 ∨ opcField c = 3#4) ∧ s.phase ≠ .active
       if 4 ≤ (opcField c).toNat then t.phase = .faulted ∧ t.fcause = 1#4
       else if reservedField then t.phase = .faulted ∧ t.fcause = 2#4
       else if badCount then t.phase = .faulted ∧ t.fcause = 3#4
       else if notActive then t.phase = .faulted ∧ t.fcause = 4#4
       else t.phase ≠ .faulted ∧ t.fcause = s.fcause ∧ t.faultRecord = s.faultRecord)

/-- 60_exceptions.md R139, "In FAULTED every beat is discarded, legal or illegal, INIT included": no command and no
accepted beat changes a register or the fault record. -/
def Obligations.FaultedDiscardsEveryBeat : Prop :=
  ∀ s : State, s.phase = .faulted →
    (∀ i : Instr, exec i s = .next s) ∧
    (∀ (c : Beat) (reads : List ReadPort) (rest : List HostMove),
      s.busy = false → s.inbox = .issue c reads :: rest →
      ∃ t, step s = .next t ∧ SameRegisters s t ∧ t.faultRecord = s.faultRecord)

/-- 60_exceptions.md R142: in FAULTED every step but a reset keeps FAULTED, the first cause and the record, and the
state is no final state of an observed run (70_reset_and_hazards.md R165); a reset leaves
FAULTED and begins a new run, its record and log empty. -/
def Obligations.OnlyResetLeavesFaulted : Prop :=
  ∀ s : State, s.phase = .faulted →
    ((∀ held rest, s.inbox ≠ .reset held :: rest) →
      ∃ t, step s = .next t ∧ t.phase = .faulted ∧ t.fcause = s.fcause ∧ t.faultRecord = s.faultRecord ∧
        observation t = none) ∧
    (∀ held rest, s.inbox = .reset held :: rest →
      ∃ t, step s = .next t ∧ t.phase = .uninit ∧ t.fcause = 0#4 ∧ t.faultRecord = [] ∧ t.log = [])

/-- 60_exceptions.md R136, "The fault is precise": whenever a command ends in FAULTED, the four context registers
keep the values they had before. -/
def Obligations.FaultsArePrecise : Prop :=
  ∀ (i : Instr) (s t : State), exec i s = .next t → t.phase = .faulted →
    t.h = s.h ∧ t.pbuf = s.pbuf ∧ t.plen = s.plen ∧ t.tbits = s.tbits

/-! ### The step -/

/-- The step runs the decoded command (60_exceptions.md section 1; 30_encoding.md section 6): with cmd_ready = 1
and a legal beat offered, it is exec of the command in the state that has logged the beat, followed by the reads
made while BUSY = 1; and the table word that withFetchWord offers is run the same way. The
moves that offer a beat are the model's own form (log entry 2). -/
def Obligations.StepRunsTheDecodedCommand : Prop :=
  (∀ (s : State) (c : Beat) (i : Instr) (reads : List ReadPort) (rest : List HostMove),
    s.busy = false → s.inbox = .issue c reads :: rest → decode c = .ok i →
    step s = mapNext (serveWhileBusy reads) (exec i { s with inbox := rest, readings := [], log := s.log ++ [c] })) ∧
  (∀ (s : State) (nbits w : Nat) (i : Instr), decodeTableWord nbits w = some i →
    step (s.withFetchWord nbits w) =
      mapNext (serveWhileBusy []) (exec i { s with busy := false, readings := [], log := s.log ++ [tableBeat nbits w] }))

/-- 42_stream.md R121: the transition table, for every phase and every accepted beat; an entry F(x) is FAULTED with
cause x, and every other entry leaves FCAUSE. -/
def Obligations.PhaseFollowsTransitionTable : Prop :=
  ∀ (s : State) (c : Beat) (reads : List ReadPort) (rest : List HostMove),
    s.busy = false → s.inbox = .issue c reads :: rest →
    ∃ t, step s = .next t ∧ t.phase = lifecycle s.phase (decode c) ∧
      t.fcause = (match faultOf s.phase (decode c) with | some x => x.code | none => s.fcause)

/-- "No stuck state exists. In every phase the block accepts beats ... and every command completes"
(93_implementation_defined.md section 1): every step answers a next state. -/
def Obligations.EveryStepCompletes : Prop :=
  ∀ s : State, ∃ t, step s = .next t

/-- The frame of every command on what is not the block's own (10_state.md section 8): BUSY, the command log, the
host's moves and readings and the draw counter are unchanged, and the fault record only grows. The host's
side is the model's own (log entries 2 and 3). -/
def Obligations.CommandsLeaveHostSideAlone : Prop :=
  ∀ (i : Instr) (s : State), ∃ t, exec i s = .next t ∧
    t.busy = s.busy ∧ t.log = s.log ∧ t.inbox = s.inbox ∧ t.readings = s.readings ∧ t.draws = s.draws ∧
    s.faultRecord <+: t.faultRecord

/-- 60_exceptions.md R150, "No event other than an accepted beat or reset changes state": with BUSY = 0, no move at
all and an idle move change nothing but the move used up and the output of the step before, and a read changes no register, flag or record of the block. -/
def Obligations.IdleHoldsAllState : Prop :=
  ∀ s : State, s.busy = false →
    (s.inbox = [] → step s = .next { s with readings := [] }) ∧
    (∀ rest, s.inbox = .idle :: rest → step s = .next { s with inbox := rest, readings := [] }) ∧
    (∀ p rest, s.inbox = .read p :: rest →
      ∃ t, step s = .next t ∧ SameRegisters s t ∧ t.busy = s.busy ∧ t.faultRecord = s.faultRecord ∧
        t.log = s.log)

/-- 30_encoding.md section 6: with cmd_ready = 0 an offered beat is not accepted; it stays offered, no register and
no record changes, and the command in progress completes. That it completes in this one step is the model's choice
(log entry 8). -/
def Obligations.BusyBlockAcceptsNoBeat : Prop :=
  ∀ (s : State) (c : Beat) (reads : List ReadPort) (rest : List HostMove),
    s.busy = true → s.inbox = .issue c reads :: rest → step s = .next { s with busy := false, readings := [] }

/-- 10_state.md R29, "between commands BUSY = 0": a step from a ready block ends in a ready block. -/
def Obligations.ReadyBetweenCommands : Prop :=
  ∀ s t : State, s.busy = false → step s = .next t → t.busy = false ∧ cmdReady t = true

/-- The open latencies are at least 1 (00_scope.md section 4): whatever legal parameters are taken, every command
takes at least one cycle. In ACTIVE the parameter is that of the command and of the number of transforms it runs
(70_reset_and_hazards.md section 4): LAT_NOP, LAT_INIT, LAT_UPDATE(1) where the UPDATE completes a block and LAT_UPDATE(0)
where it does not, LAT_FINAL(1) with PLEN ≤ 55 and LAT_FINAL(2) from 56. The first clause also covers a FINAL that
faults or is discarded, which the model charges LAT_FINAL(0): its own choice (log entry 16). -/
def Obligations.EveryCommandTakesACycle : Prop :=
  (∀ (lat : Config.Latencies) (i : Instr) (s : State), lat.Legal → 1 ≤ commandCycles lat i s) ∧
  ∀ (lat : Config.Latencies) (cnt : BitVec 3) (data : Word) (s : State), s.phase = .active → cnt.toNat ≤ 4 →
    commandCycles lat (.nop data) s = lat.nop ∧
    commandCycles lat (.init data) s = lat.init ∧
    commandCycles lat (.update cnt data) s = lat.update (if s.plen.toNat + cnt.toNat < 64 then 0 else 1) ∧
    commandCycles lat (.final data) s = lat.final (if s.plen.toNat ≤ 55 then 1 else 2)

/-! ### STATUS and DIGEST -/

/-- 10_state.md R33 and R34: a read of STATUS between commands gives the fields in their places. -/
def Obligations.StatusReadGivesItsFields : Prop :=
  ∀ (s : State) (rest : List HostMove), s.busy = false → s.inbox = .read .status :: rest →
    ∃ (t : State) (v : BitVec 32), step s = .next t ∧ t.readings = [.status v] ∧
      v.extractLsb' 0 2 =
        (match s.phase with | .uninit => 0#2 | .active => 1#2 | .finalized => 2#2 | .faulted => 3#2) ∧
      v.extractLsb' 2 1 = (if s.phase = .finalized then 1#1 else 0#1) ∧
      v.extractLsb' 3 1 = 0#1 ∧
      v.extractLsb' 4 6 = (if s.phase = .active then s.plen else 0#6) ∧
      v.extractLsb' 10 4 = s.fcause ∧
      v.extractLsb' 14 18 = 0#18 ∧
      SameRegisters s t

/-- 10_state.md section 5 and 20_memory.md section 6: a STATUS read made while an accepted command executes shows
BUSY = 1, and the registers are those the command alone leaves. The reserved bits read
0 (log entry 4); the other fields are draws (log entry 3). -/
def Obligations.StatusReadWhileBusyShowsBusy : Prop :=
  ∀ (s : State) (c : Beat) (rest : List HostMove), s.busy = false → s.inbox = .issue c [.status] :: rest →
    ∃ (t u : State) (v : BitVec 32),
      step s = .next t ∧ t.readings = [.status v] ∧ v.extractLsb' 3 1 = 1#1 ∧
      v.extractLsb' 14 18 = 0#18 ∧
      step { s with inbox := .issue c [] :: rest } = .next u ∧ SameRegisters u t

/-- 42_stream.md R120 (and 10_state.md R35): FINAL returns nothing to the host itself; after it a read of DIGEST
gives the 20 bytes of H, word 0 first, big-endian. -/
def Obligations.DigestReadGivesItsBytes : Prop :=
  (∀ (data : Word) (s : State), s.phase = .active →
    ∃ t, exec (.final data) s = .next t ∧ t.phase = .finalized ∧ t.readings = s.readings) ∧
  ∀ (s : State) (rest : List HostMove), s.busy = false → s.phase = .finalized →
    s.inbox = .read .digest :: rest →
    ∃ (t : State) (v : BitVec 160), step s = .next t ∧ t.readings = [.digest v] ∧
      (∀ (j : Fin 5) (m : Nat), m < 4 →
        v.extractLsb' (152 - 8 * (4 * j.val + m)) 8 = s.h[j].extractLsb' (24 - 8 * m) 8) ∧
      SameRegisters s t

/-- 20_memory.md R49: reading STATUS or DIGEST has no side effect and returns the same value every time between two
commands; for DIGEST, in the phase in which it has a value. -/
def Obligations.ReadsAreIdempotent : Prop :=
  ∀ (s : State) (p : ReadPort) (rest : List HostMove), s.busy = false → p = .status ∨ s.phase = .finalized →
    s.inbox = .read p :: .read p :: rest →
    ∃ (t u : State) (v : Reading), step s = .next t ∧ step t = .next u ∧
      t.readings = [v] ∧ u.readings = [v] ∧ SameRegisters s t ∧ SameRegisters s u

/-! ### Reset -/

/-- 70_reset_and_hazards.md R155 and 10_state.md R40: reset, from every state, leaves PHASE = UNINIT,
FCAUSE = NONE, BUSY = 0 and an empty fault record and log; and State.reset is such a state. What it leaves in H,
PBUF, PLEN and TBITS is the model's choice (log entry 1) and is not stated. -/
def Obligations.ResetLeavesUninit : Prop :=
  (∀ (s : State) (held : List ReadPort) (rest : List HostMove), s.inbox = .reset held :: rest →
    ∃ t, step s = .next t ∧ CleanStart t ∧ cmdReady t = true ∧ t.inbox = rest) ∧
  CleanStart State.reset ∧ cmdReady State.reset = true

/-! ### Invariants -/

/-- 10_state.md R32, 60_exceptions.md R136, R137 and R142 as one invariant: PHASE, FCAUSE and the fault record
fit. -/
def Obligations.FaultStateStaysCoherent : Prop :=
  ∀ s t : State, FaultCoherent s → step s = .next t → FaultCoherent t

/-- The invariant of FaultStateStaysCoherent holds at reset. -/
def Obligations.FaultStateCoherentAtReset : Prop := FaultCoherent State.reset

/-- 10_state.md section 7 (R38) as an inductive invariant: in ACTIVE the context is that of the message accepted
since INIT, in FINALIZED H is its digest. -/
def Obligations.ContextFollowsTheMessage : Prop :=
  ∀ s t : State, StreamInv s → step s = .next t → StreamInv t

/-- The invariant of ContextFollowsTheMessage holds at reset. -/
def Obligations.ContextInvariantAtReset : Prop := StreamInv State.reset

/-- 10_state.md section 6 (R36, R40) as noninterference: two states that differ only in stale bytes or in values the
spec leaves unspecified take steps that again differ only so, and the host reads the same values from both. That a
draw does not depend on the registers is log entry 3. -/
def Obligations.HiddenValuesNeverLeak : Prop :=
  ∀ s t s' : State, Indistinct s t → step s = .next s' → ∃ t', step t = .next t' ∧ Indistinct s' t'

/-- So the values State.reset names for H, PBUF, PLEN and TBITS (log entry 1) are indistinct from any others. -/
def Obligations.ResetValuesAreIndistinct : Prop :=
  ∀ (h : HashState) (pbuf : Block) (plen : BitVec 6) (tbits : BitVec 64),
    Indistinct State.reset { State.reset with h := h, pbuf := pbuf, plen := plen, tbits := tbits }

/-! ### Laws of the stream -/

/-- 42_stream.md R127: over a whole computation of an M of N bytes, INIT, then UPDATEs and NOPs whose bytes
concatenate to M, then FINAL, from every state that is not FAULTED, the blocks the transforms consume, in order, are
the 64-byte blocks of M, 0x80, k zero bytes and the 8-byte length, where k is the least value with
(N + 1 + k) mod 64 = 56; nothing is left over, and H ends as the IV folded over those blocks. -/
def Obligations.TransformsConsumePaddedMessage : Prop :=
  ∀ (is : List Instr) (m : List Byte) (first last : Word) (s : State),
    s.phase ≠ .faulted → streamOf is = some m →
    ∃ k : Nat, (m.length + 1 + k) % 64 = 56 ∧ (∀ j, (m.length + 1 + j) % 64 = 56 → k ≤ j) ∧
      paddedMessage m =
        m ++ [0x80#8] ++ List.replicate k 0x00#8 ++ be64bytes (BitVec.ofNat 64 (8 * m.length)) ∧
      (paddedMessage m).length % 64 = 0 ∧
      runBlocks (.init first :: is ++ [.final last]) s = blocksOf (paddedMessage m) ∧
      ∃ t, runInstrs (.init first :: is ++ [.final last]) s = .next t ∧
        t.h = absorb iv (runBlocks (.init first :: is ++ [.final last]) s)

/-- 42_stream.md R122: a whole computation runs floor(N/64) + (1 if N mod 64 ≤ 55 else 2) transforms, of which the
UPDATEs run floor(N/64), however the message is split into UPDATEs. -/
def Obligations.TransformCountOfMessage : Prop :=
  ∀ (is : List Instr) (m : List Byte) (first last : Word) (s : State),
    s.phase ≠ .faulted → streamOf is = some m →
    (runBlocks (.init first :: is ++ [.final last]) s).length =
      m.length / 64 + (if m.length % 64 ≤ 55 then 1 else 2) ∧
    (runBlocks (.init first :: is) s).length = m.length / 64

/-- The command protocol INIT; (UPDATE)*; FINAL, NOPs interleaved, completes from every state that is not FAULTED and
leaves the digest of the message (70_reset_and_hazards.md section 2; 42_stream.md sections 2 and 4). -/
def Obligations.ProtocolLeavesDigest : Prop :=
  ∀ (is : List Instr) (m : List Byte) (first last : Word) (s : State),
    s.phase ≠ .faulted → streamOf is = some m →
    ∃ t, runInstrs (.init first :: is ++ [.final last]) s = .next t ∧
      t.phase = .finalized ∧ t.h = hashOf m ∧ t.tbits = BitVec.ofNat 64 (8 * m.length) ∧ t.plen = 0#6

/-- 70_reset_and_hazards.md R167, the claim that the block computes SHA-1: under CleanStart, where the beats to come
are those of INIT; PUSH M; FINAL, whatever the host reads and idles meanwhile, and within the length contract, the
end-of-run observation is STATUS = 0x6 with the digest of M, no fault having occurred. -/
def Obligations.EndOfRunDigestOfMessage : Prop :=
  ∀ (m : List Byte) (s : State), CleanStart s → LengthInContract m.length →
    beatsToCome s.inbox = (hashBytes m).map encode →
    wellformedFrom .uninit ((hashBytes m).map encode) = true ∧
    ∃ (n : Nat) (t : State), n ≤ s.inbox.length ∧ Sys2Proof.core.run n s = .next t ∧
      RunEnded t ∧ NoFault t ∧ t.log = (hashBytes m).map encode ∧
      observation t = some (0x00000006#32, some (digestWord (hashOf m)))

/-- 70_reset_and_hazards.md section 5, `Wellformed(log)`: from a clean start the beats to come are all accepted, the
run ends, and it is free of faults exactly when every beat is legal and obeys the phase gate. -/
def Obligations.WellformedLogsRunWithoutFault : Prop :=
  ∀ s : State, CleanStart s →
    ∃ (n : Nat) (t : State), n ≤ s.inbox.length ∧ Sys2Proof.core.run n s = .next t ∧
      RunEnded t ∧ t.log = beatsToCome s.inbox ∧
      (wellformedFrom .uninit (beatsToCome s.inbox) = true ↔ NoFault t)

/-! ### Instances -/

/-- 10_state.md R41 and 60_exceptions.md R148: a step of one instance is that instance's own step and changes no
other instance. -/
def Obligations.InstancesAreIndependent : Prop :=
  ∀ (n : Nat) (p : Platform n) (k : Fin n),
    ∃ (q : Platform n) (t : State), platformStep k p = .next q ∧ step p[k] = .next t ∧ q[k] = t ∧
      ∀ j : Fin n, j ≠ k → q[j] = p[j]

/-! ### The block's record -/

/-- 10_state.md section 1, the record of the block is all the state it has: what a command and an accepted beat leave in
it is a function of that record and the command or beat alone, and a command leaves what stands at the ports. -/
def Obligations.BlockRecordDeterminesItself : Prop :=
  (∀ (i : Instr) (s t : State), s.toBlockState = t.toBlockState →
    ∃ s' t', exec i s = .next s' ∧ exec i t = .next t' ∧ s'.toBlockState = t'.toBlockState ∧
      s'.toPorts = s.toPorts ∧ t'.toPorts = t.toPorts) ∧
  (∀ (s t : State) (c : Beat) (readsS readsT : List ReadPort) (restS restT : List HostMove),
    s.toBlockState = t.toBlockState → s.busy = false → t.busy = false →
    s.inbox = .issue c readsS :: restS → t.inbox = .issue c readsT :: restT →
    ∃ s' t', step s = .next s' ∧ step t = .next t' ∧ s'.toBlockState = t'.toBlockState)
end

