-- ==== Sys2Proof/Laws/Blocks.lean ====
section
/-! SUPPORT. Cutting a byte sequence into blocks, and folding the transform over them. -/

namespace Sys2Proof.Safety

open Sys2Proof.Machine

/-- A sequence shorter than a block has no block. -/
theorem blocksOf_short {l : List Byte} (h : l.length < 64) : blocksOf l = [] := by
  simp [blocksOf, Nat.div_eq_of_lt h]

/-- The number of complete blocks. -/
@[simp] theorem blocksOf_length (l : List Byte) : (blocksOf l).length = l.length / 64 := by
  simp [blocksOf]

/-- The bytes of a block at the head of a sequence are its first block. -/
theorem blocksOf_cons (b : Block) (l : List Byte) : blocksOf (b.toList ++ l) = b :: blocksOf l := by
  have hlen : (b.toList ++ l).length / 64 = l.length / 64 + 1 := by simp
  unfold blocksOf
  rw [hlen, List.range_succ_eq_map, List.map_cons, List.map_map]
  refine congrArg₂ List.cons ?_ ?_
  · ext k hk
    simp [List.getElem?_append]
  · refine List.map_congr_left fun q _ => ?_
    ext k hk
    have h1 : ¬ 64 * (q + 1) + k < 64 := by omega
    have h2 : 64 * (q + 1) + k - 64 = 64 * q + k := by omega
    simp [List.getElem?_append, h1, h2]

/-- Cutting a sequence at a multiple of the block size cuts its blocks there. -/
theorem blocksOf_append {l : List Byte} (r : List Byte) (h : l.length % 64 = 0) :
    blocksOf (l ++ r) = blocksOf l ++ blocksOf r := by
  obtain ⟨n, hn⟩ : ∃ n, l.length = 64 * n := ⟨l.length / 64, by omega⟩
  induction n generalizing l with
  | zero =>
    have : l = [] := List.length_eq_zero_iff.mp (by omega)
    subst this; simp [blocksOf]
  | succ n ih =>
    have hb : (l.take 64).length = 64 := by simp; omega
    let b : Block := ⟨(l.take 64).toArray, by simp; omega⟩
    have hl : l = b.toList ++ l.drop 64 := (List.take_append_drop 64 l).symm
    have hd : (l.drop 64).length = 64 * n := by simp; omega
    rw [hl, List.append_assoc, blocksOf_cons, blocksOf_cons, ih (by omega) hd, List.cons_append]

/-- Bytes that do not complete a further block add none. -/
theorem blocksOf_append_short {l r : List Byte} (h : (l ++ r).length / 64 = l.length / 64) :
    blocksOf (l ++ r) = blocksOf l := by
  have hl := List.take_append_drop (64 * (l.length / 64)) l
  have h1 : (l.take (64 * (l.length / 64))).length % 64 = 0 := by simp; omega
  have e1 : blocksOf (l.drop (64 * (l.length / 64))) = [] := blocksOf_short (by simp; omega)
  have e2 : blocksOf (l.drop (64 * (l.length / 64)) ++ r) = [] := by
    apply blocksOf_short; simp at h ⊢; omega
  calc blocksOf (l ++ r)
      = blocksOf (l.take (64 * (l.length / 64)) ++ (l.drop (64 * (l.length / 64)) ++ r)) := by
        rw [← List.append_assoc, hl]
    _ = blocksOf (l.take (64 * (l.length / 64)) ++ l.drop (64 * (l.length / 64))) := by
        rw [blocksOf_append _ h1, blocksOf_append _ h1, e1, e2]
    _ = blocksOf l := by rw [hl]

@[simp] theorem absorb_nil (s : HashState) : absorb s [] = s := rfl

@[simp] theorem absorb_cons (s : HashState) (b : Block) (bs : List Block) :
    absorb s (b :: bs) = absorb (transform s b) bs := rfl

theorem absorb_append (s : HashState) (as bs : List Block) :
    absorb s (as ++ bs) = absorb (absorb s as) bs := by simp [absorb]

end Sys2Proof.Safety
end

