-- ==== Sys2Proof/Laws/State.lean ====
section
/-! SUPPORT. One lemma per field per state update, true by rfl (by one unfolding where rfl is slow), so
that no later proof unfolds a record update. A register that a reset leaves at a value of the model's choice (log entry 1) has no lemma here. -/

namespace Sys2Proof.Machine

variable (s : State)

@[simp] theorem writePbuf_h (k : Nat) (x : Byte) : (writePbuf k x s).h = s.h := rfl
@[simp] theorem writePbuf_pbuf (k : Nat) (x : Byte) : (writePbuf k x s).pbuf = s.pbuf.setIfInBounds k x := rfl
@[simp] theorem writePbuf_plen (k : Nat) (x : Byte) : (writePbuf k x s).plen = s.plen := rfl
@[simp] theorem writePbuf_tbits (k : Nat) (x : Byte) : (writePbuf k x s).tbits = s.tbits := rfl
@[simp] theorem writePbuf_phase (k : Nat) (x : Byte) : (writePbuf k x s).phase = s.phase := rfl
@[simp] theorem writePbuf_fcause (k : Nat) (x : Byte) : (writePbuf k x s).fcause = s.fcause := rfl
@[simp] theorem writePbuf_busy (k : Nat) (x : Byte) : (writePbuf k x s).busy = s.busy := rfl
@[simp] theorem writePbuf_faultRecord (k : Nat) (x : Byte) : (writePbuf k x s).faultRecord = s.faultRecord := rfl
@[simp] theorem writePbuf_log (k : Nat) (x : Byte) : (writePbuf k x s).log = s.log := rfl
@[simp] theorem writePbuf_inbox (k : Nat) (x : Byte) : (writePbuf k x s).inbox = s.inbox := rfl
@[simp] theorem writePbuf_readings (k : Nat) (x : Byte) : (writePbuf k x s).readings = s.readings := rfl
@[simp] theorem writePbuf_draws (k : Nat) (x : Byte) : (writePbuf k x s).draws = s.draws := rfl

@[simp] theorem runTransform_h : (runTransform s).h = transform s.h s.pbuf := by simp only [runTransform]
@[simp] theorem runTransform_pbuf : (runTransform s).pbuf = s.pbuf := by simp only [runTransform]
@[simp] theorem runTransform_plen : (runTransform s).plen = s.plen := by simp only [runTransform]
@[simp] theorem runTransform_tbits : (runTransform s).tbits = s.tbits := by simp only [runTransform]
@[simp] theorem runTransform_phase : (runTransform s).phase = s.phase := by simp only [runTransform]
@[simp] theorem runTransform_fcause : (runTransform s).fcause = s.fcause := by simp only [runTransform]
@[simp] theorem runTransform_busy : (runTransform s).busy = s.busy := by simp only [runTransform]
@[simp] theorem runTransform_faultRecord : (runTransform s).faultRecord = s.faultRecord := by simp only [runTransform]
@[simp] theorem runTransform_log : (runTransform s).log = s.log := by simp only [runTransform]
@[simp] theorem runTransform_inbox : (runTransform s).inbox = s.inbox := by simp only [runTransform]
@[simp] theorem runTransform_readings : (runTransform s).readings = s.readings := by simp only [runTransform]
@[simp] theorem runTransform_draws : (runTransform s).draws = s.draws := by simp only [runTransform]

@[simp] theorem completeBlock_h : (completeBlock s).h = transform s.h s.pbuf := rfl
@[simp] theorem completeBlock_pbuf : (completeBlock s).pbuf = s.pbuf := rfl
@[simp] theorem completeBlock_plen : (completeBlock s).plen = 0#6 := rfl
@[simp] theorem completeBlock_tbits : (completeBlock s).tbits = s.tbits + 512#64 := rfl
@[simp] theorem completeBlock_phase : (completeBlock s).phase = s.phase := rfl
@[simp] theorem completeBlock_fcause : (completeBlock s).fcause = s.fcause := rfl
@[simp] theorem completeBlock_busy : (completeBlock s).busy = s.busy := rfl
@[simp] theorem completeBlock_faultRecord : (completeBlock s).faultRecord = s.faultRecord := rfl
@[simp] theorem completeBlock_log : (completeBlock s).log = s.log := rfl
@[simp] theorem completeBlock_inbox : (completeBlock s).inbox = s.inbox := rfl
@[simp] theorem completeBlock_readings : (completeBlock s).readings = s.readings := rfl
@[simp] theorem completeBlock_draws : (completeBlock s).draws = s.draws := rfl

@[simp] theorem takeFault_h (x : Cause) (c : Beat) : (takeFault x c s).h = s.h := rfl
@[simp] theorem takeFault_pbuf (x : Cause) (c : Beat) : (takeFault x c s).pbuf = s.pbuf := rfl
@[simp] theorem takeFault_plen (x : Cause) (c : Beat) : (takeFault x c s).plen = s.plen := rfl
@[simp] theorem takeFault_tbits (x : Cause) (c : Beat) : (takeFault x c s).tbits = s.tbits := rfl
@[simp] theorem takeFault_phase (x : Cause) (c : Beat) : (takeFault x c s).phase = .faulted := rfl
@[simp] theorem takeFault_fcause (x : Cause) (c : Beat) : (takeFault x c s).fcause = x.code := rfl
@[simp] theorem takeFault_busy (x : Cause) (c : Beat) : (takeFault x c s).busy = s.busy := rfl
@[simp] theorem takeFault_faultRecord (x : Cause) (c : Beat) : (takeFault x c s).faultRecord = s.faultRecord ++ [⟨x, c, s.phase⟩] := rfl
@[simp] theorem takeFault_log (x : Cause) (c : Beat) : (takeFault x c s).log = s.log := rfl
@[simp] theorem takeFault_inbox (x : Cause) (c : Beat) : (takeFault x c s).inbox = s.inbox := rfl
@[simp] theorem takeFault_readings (x : Cause) (c : Beat) : (takeFault x c s).readings = s.readings := rfl
@[simp] theorem takeFault_draws (x : Cause) (c : Beat) : (takeFault x c s).draws = s.draws := rfl

@[simp] theorem startContext_h : (startContext s).h = iv := rfl
@[simp] theorem startContext_pbuf : (startContext s).pbuf = s.pbuf := rfl
@[simp] theorem startContext_plen : (startContext s).plen = 0#6 := rfl
@[simp] theorem startContext_tbits : (startContext s).tbits = 0#64 := rfl
@[simp] theorem startContext_phase : (startContext s).phase = .active := rfl
@[simp] theorem startContext_fcause : (startContext s).fcause = s.fcause := rfl
@[simp] theorem startContext_busy : (startContext s).busy = s.busy := rfl
@[simp] theorem startContext_faultRecord : (startContext s).faultRecord = s.faultRecord := rfl
@[simp] theorem startContext_log : (startContext s).log = s.log := rfl
@[simp] theorem startContext_inbox : (startContext s).inbox = s.inbox := rfl
@[simp] theorem startContext_readings : (startContext s).readings = s.readings := rfl
@[simp] theorem startContext_draws : (startContext s).draws = s.draws := rfl

@[simp] theorem padMarker_h : (padMarker s).h = s.h := by simp only [padMarker, writePbuf]
@[simp] theorem padMarker_pbuf : (padMarker s).pbuf = s.pbuf.setIfInBounds s.plen.toNat 0x80#8 := by simp only [padMarker, writePbuf]
@[simp] theorem padMarker_plen : (padMarker s).plen = s.plen := by simp only [padMarker, writePbuf]
@[simp] theorem padMarker_tbits : (padMarker s).tbits = s.tbits := by simp only [padMarker, writePbuf]
@[simp] theorem padMarker_phase : (padMarker s).phase = s.phase := by simp only [padMarker, writePbuf]
@[simp] theorem padMarker_fcause : (padMarker s).fcause = s.fcause := by simp only [padMarker, writePbuf]
@[simp] theorem padMarker_busy : (padMarker s).busy = s.busy := by simp only [padMarker, writePbuf]
@[simp] theorem padMarker_faultRecord : (padMarker s).faultRecord = s.faultRecord := by simp only [padMarker, writePbuf]
@[simp] theorem padMarker_log : (padMarker s).log = s.log := by simp only [padMarker, writePbuf]
@[simp] theorem padMarker_inbox : (padMarker s).inbox = s.inbox := by simp only [padMarker, writePbuf]
@[simp] theorem padMarker_readings : (padMarker s).readings = s.readings := by simp only [padMarker, writePbuf]
@[simp] theorem padMarker_draws : (padMarker s).draws = s.draws := by simp only [padMarker, writePbuf]

@[simp] theorem countResidue_h (n : Nat) : (countResidue n s).h = s.h := by simp only [countResidue]
@[simp] theorem countResidue_pbuf (n : Nat) : (countResidue n s).pbuf = s.pbuf := by simp only [countResidue]
@[simp] theorem countResidue_plen (n : Nat) : (countResidue n s).plen = s.plen := by simp only [countResidue]
@[simp] theorem countResidue_tbits (n : Nat) : (countResidue n s).tbits = s.tbits + BitVec.ofNat 64 (8 * n) := by simp only [countResidue]
@[simp] theorem countResidue_phase (n : Nat) : (countResidue n s).phase = s.phase := by simp only [countResidue]
@[simp] theorem countResidue_fcause (n : Nat) : (countResidue n s).fcause = s.fcause := by simp only [countResidue]
@[simp] theorem countResidue_busy (n : Nat) : (countResidue n s).busy = s.busy := by simp only [countResidue]
@[simp] theorem countResidue_faultRecord (n : Nat) : (countResidue n s).faultRecord = s.faultRecord := by simp only [countResidue]
@[simp] theorem countResidue_log (n : Nat) : (countResidue n s).log = s.log := by simp only [countResidue]
@[simp] theorem countResidue_inbox (n : Nat) : (countResidue n s).inbox = s.inbox := by simp only [countResidue]
@[simp] theorem countResidue_readings (n : Nat) : (countResidue n s).readings = s.readings := by simp only [countResidue]
@[simp] theorem countResidue_draws (n : Nat) : (countResidue n s).draws = s.draws := by simp only [countResidue]

@[simp] theorem lengthField_h : (lengthField s).h = s.h := by simp only [lengthField]
@[simp] theorem lengthField_pbuf : (lengthField s).pbuf = writeLength s.tbits s.pbuf := rfl
@[simp] theorem lengthField_plen : (lengthField s).plen = s.plen := by simp only [lengthField]
@[simp] theorem lengthField_tbits : (lengthField s).tbits = s.tbits := by simp only [lengthField]
@[simp] theorem lengthField_phase : (lengthField s).phase = s.phase := by simp only [lengthField]
@[simp] theorem lengthField_fcause : (lengthField s).fcause = s.fcause := by simp only [lengthField]
@[simp] theorem lengthField_busy : (lengthField s).busy = s.busy := by simp only [lengthField]
@[simp] theorem lengthField_faultRecord : (lengthField s).faultRecord = s.faultRecord := by simp only [lengthField]
@[simp] theorem lengthField_log : (lengthField s).log = s.log := by simp only [lengthField]
@[simp] theorem lengthField_inbox : (lengthField s).inbox = s.inbox := by simp only [lengthField]
@[simp] theorem lengthField_readings : (lengthField s).readings = s.readings := by simp only [lengthField]
@[simp] theorem lengthField_draws : (lengthField s).draws = s.draws := by simp only [lengthField]

@[simp] theorem closeContext_h : (closeContext s).h = s.h := by simp only [closeContext]
@[simp] theorem closeContext_pbuf : (closeContext s).pbuf = s.pbuf := by simp only [closeContext]
@[simp] theorem closeContext_plen : (closeContext s).plen = 0#6 := by simp only [closeContext]
@[simp] theorem closeContext_tbits : (closeContext s).tbits = s.tbits := by simp only [closeContext]
@[simp] theorem closeContext_phase : (closeContext s).phase = .finalized := by simp only [closeContext]
@[simp] theorem closeContext_fcause : (closeContext s).fcause = s.fcause := by simp only [closeContext]
@[simp] theorem closeContext_busy : (closeContext s).busy = s.busy := by simp only [closeContext]
@[simp] theorem closeContext_faultRecord : (closeContext s).faultRecord = s.faultRecord := by simp only [closeContext]
@[simp] theorem closeContext_log : (closeContext s).log = s.log := by simp only [closeContext]
@[simp] theorem closeContext_inbox : (closeContext s).inbox = s.inbox := by simp only [closeContext]
@[simp] theorem closeContext_readings : (closeContext s).readings = s.readings := by simp only [closeContext]
@[simp] theorem closeContext_draws : (closeContext s).draws = s.draws := by simp only [closeContext]

@[simp] theorem resetBlock_phase : (resetBlock s).phase = .uninit := rfl
@[simp] theorem resetBlock_fcause : (resetBlock s).fcause = 0#4 := rfl
@[simp] theorem resetBlock_busy : (resetBlock s).busy = false := rfl
@[simp] theorem resetBlock_faultRecord : (resetBlock s).faultRecord = [] := rfl
@[simp] theorem resetBlock_log : (resetBlock s).log = [] := rfl
@[simp] theorem resetBlock_inbox : (resetBlock s).inbox = s.inbox := rfl
@[simp] theorem resetBlock_readings : (resetBlock s).readings = s.readings := rfl
@[simp] theorem resetBlock_draws : (resetBlock s).draws = s.draws := rfl

@[simp] theorem logged_h (c : Beat) (rest : List HostMove) : (logged c rest s).h = s.h := rfl
@[simp] theorem logged_pbuf (c : Beat) (rest : List HostMove) : (logged c rest s).pbuf = s.pbuf := rfl
@[simp] theorem logged_plen (c : Beat) (rest : List HostMove) : (logged c rest s).plen = s.plen := rfl
@[simp] theorem logged_tbits (c : Beat) (rest : List HostMove) : (logged c rest s).tbits = s.tbits := rfl
@[simp] theorem logged_phase (c : Beat) (rest : List HostMove) : (logged c rest s).phase = s.phase := rfl
@[simp] theorem logged_fcause (c : Beat) (rest : List HostMove) : (logged c rest s).fcause = s.fcause := rfl
@[simp] theorem logged_busy (c : Beat) (rest : List HostMove) : (logged c rest s).busy = s.busy := rfl
@[simp] theorem logged_faultRecord (c : Beat) (rest : List HostMove) : (logged c rest s).faultRecord = s.faultRecord := rfl
@[simp] theorem logged_log (c : Beat) (rest : List HostMove) : (logged c rest s).log = s.log ++ [c] := rfl
@[simp] theorem logged_inbox (c : Beat) (rest : List HostMove) : (logged c rest s).inbox = rest := rfl
@[simp] theorem logged_readings (c : Beat) (rest : List HostMove) : (logged c rest s).readings = s.readings := rfl
@[simp] theorem logged_draws (c : Beat) (rest : List HostMove) : (logged c rest s).draws = s.draws := rfl

@[simp] theorem serveRead_h (p : ReadPort) : (serveRead p s).h = s.h := rfl
@[simp] theorem serveRead_pbuf (p : ReadPort) : (serveRead p s).pbuf = s.pbuf := rfl
@[simp] theorem serveRead_plen (p : ReadPort) : (serveRead p s).plen = s.plen := rfl
@[simp] theorem serveRead_tbits (p : ReadPort) : (serveRead p s).tbits = s.tbits := rfl
@[simp] theorem serveRead_phase (p : ReadPort) : (serveRead p s).phase = s.phase := rfl
@[simp] theorem serveRead_fcause (p : ReadPort) : (serveRead p s).fcause = s.fcause := rfl
@[simp] theorem serveRead_busy (p : ReadPort) : (serveRead p s).busy = s.busy := rfl
@[simp] theorem serveRead_faultRecord (p : ReadPort) : (serveRead p s).faultRecord = s.faultRecord := rfl
@[simp] theorem serveRead_log (p : ReadPort) : (serveRead p s).log = s.log := rfl
@[simp] theorem serveRead_inbox (p : ReadPort) : (serveRead p s).inbox = s.inbox := rfl
@[simp] theorem serveRead_readings (p : ReadPort) : (serveRead p s).readings = s.readings ++ [portRead p s] := rfl
@[simp] theorem serveRead_draws (p : ReadPort) : (serveRead p s).draws = s.draws + 1 := rfl

@[simp] theorem offerBeat_h (c : Beat) : (offerBeat c s).h = s.h := rfl
@[simp] theorem offerBeat_pbuf (c : Beat) : (offerBeat c s).pbuf = s.pbuf := rfl
@[simp] theorem offerBeat_plen (c : Beat) : (offerBeat c s).plen = s.plen := rfl
@[simp] theorem offerBeat_tbits (c : Beat) : (offerBeat c s).tbits = s.tbits := rfl
@[simp] theorem offerBeat_phase (c : Beat) : (offerBeat c s).phase = s.phase := rfl
@[simp] theorem offerBeat_fcause (c : Beat) : (offerBeat c s).fcause = s.fcause := rfl
@[simp] theorem offerBeat_busy (c : Beat) : (offerBeat c s).busy = false := rfl
@[simp] theorem offerBeat_faultRecord (c : Beat) : (offerBeat c s).faultRecord = s.faultRecord := rfl
@[simp] theorem offerBeat_log (c : Beat) : (offerBeat c s).log = s.log := rfl
@[simp] theorem offerBeat_inbox (c : Beat) : (offerBeat c s).inbox = .issue c [] :: s.inbox := rfl
@[simp] theorem offerBeat_readings (c : Beat) : (offerBeat c s).readings = s.readings := rfl
@[simp] theorem offerBeat_draws (c : Beat) : (offerBeat c s).draws = s.draws := rfl

@[simp] theorem beginStep_toBlockState : (beginStep s).toBlockState = s.toBlockState := rfl
@[simp] theorem beginStep_busy : (beginStep s).busy = s.busy := rfl
@[simp] theorem beginStep_inbox : (beginStep s).inbox = s.inbox := rfl
@[simp] theorem beginStep_readings : (beginStep s).readings = [] := rfl
@[simp] theorem beginStep_draws : (beginStep s).draws = s.draws := rfl

end Sys2Proof.Machine
end

