-- ==== Sys2Proof/Laws/Append.lean ====
section
/-! SUPPORT. What the byte append does, once, and what a run of appends does (42_stream.md R111, R112). -/

namespace Sys2Proof.Machine

open Sys2Proof.Safety

@[simp] theorem pending_length (s : State) : (pending s).length = s.plen.toNat := by
  have := s.plen.isLt
  simp [pending]; omega

/-- The buffered bytes, by index. -/
theorem pending_getElem (s : State) (k : Nat) (hk : k < (pending s).length) :
    (pending s)[k] = s.pbuf[k]'(by have := s.plen.isLt; simp at hk; omega) := by
  simp [pending]

/-- APPEND short of a full buffer. -/
theorem appendByte_short (x : Byte) (s : State) (h : s.plen.toNat < 63) :
    appendByte x s = { s with
      pbuf := s.pbuf.setIfInBounds s.plen.toNat x
      plen := BitVec.ofNat 6 (s.plen.toNat + 1) } := by
  have h' : ¬ s.plen.toNat + 1 = 64 := by omega
  simp [appendByte, h', writePbuf, appendAddress]

/-- APPEND of the byte that fills the buffer. -/
theorem appendByte_full (x : Byte) (s : State) (h : s.plen.toNat = 63) :
    appendByte x s = completeBlock (writePbuf 63 x s) := by
  simp [appendByte, h, appendAddress]

/-- One byte more is pending after a short APPEND. -/
theorem pending_appendByte_short (x : Byte) (s : State) (h : s.plen.toNat < 63) :
    pending (appendByte x s) = pending s ++ [x] := by
  rw [appendByte_short x s h]
  have hlt : s.plen.toNat + 1 < 64 := by omega
  apply List.ext_getElem
  · simp [pending, Nat.mod_eq_of_lt hlt]; omega
  · intro k h1 h2
    simp [pending, Nat.mod_eq_of_lt hlt] at h1
    simp only [pending, List.getElem_take, Vector.getElem_toList, List.getElem_append]
    rw [Vector.getElem_setIfInBounds]
    by_cases hk : s.plen.toNat = k
    · simp [hk]
    · have : k < s.plen.toNat := by omega
      simp [hk, this]; omega

/-- The block that the filling APPEND completes is the pending bytes and the new one. -/
theorem toList_full (x : Byte) (s : State) (h : s.plen.toNat = 63) :
    (s.pbuf.setIfInBounds 63 x).toList = pending s ++ [x] := by
  apply List.ext_getElem
  · simp [h]
  · intro k h1 h2
    simp at h1
    simp only [Vector.getElem_toList, List.getElem_append, pending_length]
    rw [Vector.getElem_setIfInBounds]
    by_cases hk : 63 = k
    · subst hk; simp [h]
    · have h3 : k < s.plen.toNat := by omega
      simp [hk, h3, pending]

/-- The fields an append never writes. -/
theorem appendByte_frame (x : Byte) (s : State) :
    (appendByte x s).phase = s.phase ∧ SameBeyondContext s (appendByte x s) := by
  have := s.plen.isLt
  rcases Nat.lt_or_ge s.plen.toNat 63 with h | h
  · rw [appendByte_short x s h]; simp [SameBeyondContext]
  · rw [appendByte_full x s (by omega)]; simp [SameBeyondContext]

theorem appendBytes_cons (x : Byte) (xs : List Byte) (s : State) :
    appendBytes (x :: xs) s = appendBytes xs (appendByte x s) := rfl

theorem appendBytes_append (xs ys : List Byte) (s : State) :
    appendBytes (xs ++ ys) s = appendBytes ys (appendBytes xs s) := by simp [appendBytes]

theorem appendBytes_frame (xs : List Byte) (s : State) :
    (appendBytes xs s).phase = s.phase ∧ SameBeyondContext s (appendBytes xs s) := by
  induction xs generalizing s with
  | nil => simp [appendBytes, SameBeyondContext]
  | cons x xs ih =>
    rw [appendBytes_cons]
    have h1 := appendByte_frame x s
    have h2 := ih (appendByte x s)
    simp only [SameBeyondContext] at *
    simp [h1, h2]

/-- Everything a run of appends does to H, TBITS and the pending bytes, in terms of the byte sequence that the
pending bytes and the appended ones make up. -/
theorem appendBytes_spec (xs : List Byte) (s : State) :
    (appendBytes xs s).h = absorb s.h (blocksOf (pending s ++ xs)) ∧
    (appendBytes xs s).tbits = s.tbits + BitVec.ofNat 64 (512 * ((pending s ++ xs).length / 64)) ∧
    pending (appendBytes xs s) = (pending s ++ xs).drop (64 * ((pending s ++ xs).length / 64)) := by
  induction xs generalizing s with
  | nil =>
    have hlt := s.plen.isLt
    have h : (pending s).length < 64 := by simp; omega
    have h0 : s.plen.toNat / 64 = 0 := by omega
    simp [appendBytes, blocksOf_short h, h0]
  | cons x xs ih =>
    rw [appendBytes_cons]
    have hlt := s.plen.isLt
    rcases Nat.lt_or_ge s.plen.toNat 63 with h | h
    · have hp := pending_appendByte_short x s h
      have := ih (appendByte x s)
      rw [hp, List.append_assoc, List.singleton_append] at this
      rw [appendByte_short x s h] at this ⊢
      exact this
    · have h63 : s.plen.toNat = 63 := by omega
      have := ih (appendByte x s)
      have hp : pending (appendByte x s) = [] := by
        rw [appendByte_full x s h63]; simp [pending]
      rw [hp, List.nil_append] at this
      rw [appendByte_full x s h63] at this ⊢
      have hl : pending s ++ x :: xs = (s.pbuf.setIfInBounds 63 x).toList ++ xs := by
        rw [toList_full x s h63]; simp
      have hn : ((s.pbuf.setIfInBounds 63 x).toList ++ xs).length / 64 = xs.length / 64 + 1 := by
        simp
      refine ⟨?_, ?_, ?_⟩
      · rw [this.1, hl, blocksOf_cons]; rfl
      · rw [this.2.1, hl, hn, completeBlock_tbits, writePbuf_tbits]
        apply BitVec.eq_of_toNat_eq
        simp; omega
      · rw [this.2.2, hl, hn, List.drop_append]
        have e1 : (s.pbuf.setIfInBounds 63 x).toList.drop (64 * (xs.length / 64 + 1)) = [] := by
          apply List.drop_eq_nil_of_le; simp
        have e2 : 64 * (xs.length / 64 + 1) - (s.pbuf.setIfInBounds 63 x).toList.length
            = 64 * (xs.length / 64) := by simp; omega
        rw [e1, e2, List.nil_append]

/-- PLEN after a run of appends. -/
theorem appendBytes_plen (xs : List Byte) (s : State) :
    (appendBytes xs s).plen.toNat = (s.plen.toNat + xs.length) % 64 := by
  rw [← pending_length, (appendBytes_spec xs s).2.2]
  simp; omega

/-- An UPDATE carries CNT bytes. -/
@[simp] theorem updateBytes_length (cnt : BitVec 3) (data : Word) :
    (updateBytes cnt data).length = cnt.toNat := by simp [updateBytes]

end Sys2Proof.Machine
end

