-- ==== Sys2Proof/Laws/Bytes.lean ====
section
/-! SUPPORT. What the buffer writes do to each byte. -/

namespace Sys2Proof.Machine

theorem writeBytes_succ (f : Nat → Byte) (lo n : Nat) (b : Block) :
    writeBytes f lo (n + 1) b = (writeBytes f lo n b).setIfInBounds (lo + n) (f n) := by
  simp [writeBytes, List.range_succ]

/-- A run of `n` byte writes from `lo` writes exactly the bytes in `[lo, lo + n)`. -/
theorem writeBytes_getElem (f : Nat → Byte) (lo n : Nat) (b : Block) (k : Nat) (hk : k < 64) :
    (writeBytes f lo n b)[k] = if lo ≤ k ∧ k < lo + n then f (k - lo) else b[k] := by
  induction n with
  | zero => simp [writeBytes]
  | succ n ih =>
    rw [writeBytes_succ, Vector.getElem_setIfInBounds, ih]
    by_cases h : lo + n = k
    · subst h; simp
    · rw [if_neg h]; congr 1; simp; omega

theorem zeroFill_getElem (lo hi : Nat) (b : Block) (k : Nat) (hk : k < 64) :
    (zeroFill lo hi b)[k] = if lo ≤ k ∧ k < hi then 0#8 else b[k] := by
  rw [zeroFill, writeBytes_getElem]; congr 1; simp; omega

theorem writeLength_getElem (v : BitVec 64) (b : Block) (k : Nat) (hk : k < 64) :
    (writeLength v b)[k] = if 56 ≤ k then be64byte v (k - 56) else b[k] := by
  rw [writeLength, writeBytes_getElem]; congr 1; simp; omega

end Sys2Proof.Machine
end

