-- ==== Sys2Proof/Laws/Decode.lean ====
section
/-! SUPPORT. The fields of a packed beat, and a beat packed from its fields. -/

namespace Sys2Proof

/-- Every bit of a packed beat (30_encoding.md R60). -/
theorem packBeat_getLsbD (o : BitVec 4) (n : BitVec 3) (r : BitVec 1) (d : Word) (i : Nat) :
    (packBeat o n r d).getLsbD i =
      if i < 32 then d.getLsbD i
      else if i < 33 then r.getLsbD (i - 32)
      else if i < 36 then n.getLsbD (i - 33)
      else o.getLsbD (i - 36) := by
  change ((o ++ n ++ r ++ d : BitVec (4 + 3 + 1 + 32))).getLsbD i = _
  simp only [BitVec.getLsbD_append]
  split_ifs <;> first | rfl | omega

@[simp] theorem opcField_packBeat (o : BitVec 4) (n : BitVec 3) (r : BitVec 1) (d : Word) :
    opcField (packBeat o n r d) = o := by
  ext i hi
  have h1 : ¬ 36 + i < 32 := by omega
  have h2 : ¬ 36 + i < 33 := by omega
  simp [opcField, packBeat_getLsbD, BitVec.getLsbD_eq_getElem hi, h1, h2]

@[simp] theorem cntField_packBeat (o : BitVec 4) (n : BitVec 3) (r : BitVec 1) (d : Word) :
    cntField (packBeat o n r d) = n := by
  ext i hi
  have h1 : ¬ 33 + i < 32 := by omega
  have h2 : 33 + i < 36 := by omega
  simp [cntField, packBeat_getLsbD, BitVec.getLsbD_eq_getElem hi, h1, h2]

@[simp] theorem rsvField_packBeat (o : BitVec 4) (n : BitVec 3) (r : BitVec 1) (d : Word) :
    rsvField (packBeat o n r d) = r := by
  ext i hi
  have h1 : ¬ 32 + i < 32 := by omega
  have h2 : 32 + i < 33 := by omega
  simp [rsvField, packBeat_getLsbD, BitVec.getLsbD_eq_getElem hi, h1, h2]

@[simp] theorem dataField_packBeat (o : BitVec 4) (n : BitVec 3) (r : BitVec 1) (d : Word) :
    dataField (packBeat o n r d) = d := by
  ext i hi
  simp [dataField, packBeat_getLsbD, hi]

/-- The four fields of a beat make up the beat. -/
theorem packBeat_fields (c : Beat) :
    packBeat (opcField c) (cntField c) (rsvField c) (dataField c) = c := by
  apply BitVec.eq_of_getLsbD_eq
  intro i hi
  rw [packBeat_getLsbD]
  simp only [opcField, cntField, rsvField, dataField, BitVec.getLsbD_extractLsb']
  split_ifs with h1 h2 h3
  · simp [h1]
  · have : 32 + (i - 32) = i := by omega
    have h : i - 32 < 1 := by omega
    simp [this, h]
  · have : 33 + (i - 33) = i := by omega
    have h : i - 33 < 3 := by omega
    simp [this, h]
  · have : 36 + (i - 36) = i := by omega
    have h : i - 36 < 4 := by omega
    simp [this, h]

/-- Everything the decoder can answer: three rejections and four commands, each with the fields that lead to it
(30_encoding.md R68, R69). -/
theorem decode_cases (c : Beat) :
    (decode c = .error .reservedOpcode ∧ 4 ≤ (opcField c).toNat) ∨
    (decode c = .error .reservedField ∧ (opcField c).toNat < 4 ∧
      (rsvField c = 1#1 ∨ (opcField c ≠ 2#4 ∧ cntField c ≠ 0#3))) ∨
    (decode c = .error .badCount ∧ opcField c = 2#4 ∧ rsvField c = 0#1 ∧ 4 < (cntField c).toNat) ∨
    (decode c = .ok (.nop (dataField c)) ∧ opcField c = 0#4 ∧ rsvField c = 0#1 ∧ cntField c = 0#3) ∨
    (decode c = .ok (.init (dataField c)) ∧ opcField c = 1#4 ∧ rsvField c = 0#1 ∧ cntField c = 0#3) ∨
    (decode c = .ok (.update (cntField c) (dataField c)) ∧
      opcField c = 2#4 ∧ rsvField c = 0#1 ∧ (cntField c).toNat ≤ 4) ∨
    (decode c = .ok (.final (dataField c)) ∧ opcField c = 3#4 ∧ rsvField c = 0#1 ∧ cntField c = 0#3) := by
  unfold decode
  generalize opcField c = o
  generalize rsvField c = r
  generalize cntField c = n
  generalize dataField c = d
  have fields : ∀ (o : BitVec 4) (r : BitVec 1) (n : BitVec 3),
      4 ≤ o.toNat ∨ r = 1#1 ∨
      (r = 0#1 ∧ o.toNat < 4 ∧ ((o = 2#4 ∧ (4 < n.toNat ∨ n.toNat ≤ 4)) ∨ (o ≠ 2#4 ∧ n ≠ 0#3) ∨
        (n = 0#3 ∧ (o = 0#4 ∨ o = 1#4 ∨ o = 3#4)))) := by decide
  rcases Nat.lt_or_ge o.toNat 4 with ho | ho
  · have ho' : ¬ 4 ≤ o.toNat := by omega
    rcases fields o r n with h | rfl | ⟨rfl, h1, ⟨rfl, h | h⟩ | ⟨h, h'⟩ | ⟨rfl, rfl | rfl | rfl⟩⟩
    · omega
    · simp [ho', ho]
    · simp [h]
    · have : ¬ 4 < n.toNat := by omega
      simp [h, this]
    · simp [h, h', ho, ho']
    · simp
    · simp
    · simp
  · simp [ho]

end Sys2Proof
end

