-- ==== Sys2Proof/Laws/Pad.lean ====
section
/-! SUPPORT. What the steps of FINAL do (42_stream.md R116 to R118). -/

namespace Sys2Proof.Machine

open Sys2Proof.Safety

/-- Step 2 of FINAL with room for the length field. -/
theorem padFill_one (i : Nat) (s : State) (h : i ≤ 56) :
    padFill i s = { s with pbuf := zeroFill i 56 s.pbuf } := by simp [padFill, h]

/-- Step 2 of FINAL without room: the padding block's transform comes first. -/
theorem padFill_two (i : Nat) (s : State) (h : 56 < i) :
    padFill i s = { s with
      h := transform s.h (zeroFill i 64 s.pbuf)
      pbuf := zeroFill 0 56 (zeroFill i 64 s.pbuf) } := by
  simp [padFill, Nat.not_le.mpr h, runTransform]

/-- Everything FINAL leaves apart from H and PBUF. -/
theorem finish_registers (s : State) :
    (finish s).tbits = s.tbits + BitVec.ofNat 64 (8 * s.plen.toNat) ∧ (finish s).plen = 0#6 ∧
    (finish s).phase = .finalized ∧ SameBeyondContext s (finish s) := by
  unfold finish SameBeyondContext
  rcases Nat.lt_or_ge 56 (s.plen.toNat + 1) with h | h
  · simp [padFill_two _ _ h]
  · simp [padFill_one _ _ h]

/-- H and PBUF after a FINAL with room for the length field: one transform (R116). -/
theorem finish_one (s : State) (h : s.plen.toNat ≤ 55) :
    (finish s).pbuf = writeLength (finish s).tbits
      (zeroFill (s.plen.toNat + 1) 56 (s.pbuf.setIfInBounds s.plen.toNat 0x80#8)) ∧
    (finish s).h = transform s.h (finish s).pbuf := by
  have h' : s.plen.toNat + 1 ≤ 56 := by omega
  simp [finish, padFill_one _ _ h']

/-- H and PBUF after a FINAL without room for the length field: two transforms (R116). -/
theorem finish_two (s : State) (h : 56 ≤ s.plen.toNat) :
    let pad := zeroFill (s.plen.toNat + 1) 64 (s.pbuf.setIfInBounds s.plen.toNat 0x80#8)
    (finish s).pbuf = writeLength (finish s).tbits (zeroFill 0 56 pad) ∧
    (finish s).h = transform (transform s.h pad) (finish s).pbuf := by
  have h' : 56 < s.plen.toNat + 1 := by omega
  simp [finish, padFill_two _ _ h']

end Sys2Proof.Machine
end

