-- ==== Sys2Proof/Laws/PerInstr.lean ====
section
/-! SUPPORT. The family EncodeFields: the fields of every command's beat (30_encoding.md R60, R62, R63). -/

namespace Sys2Proof.Laws.EncodeFields

/-- The beat of a command has its opcode, its count, RSV = 0 and its DATA. -/
def Statement (i : Instr) : Prop :=
  opcField (encode i) = opcodeOf i ∧ cntField (encode i) = countOf i ∧ rsvField (encode i) = 0#1 ∧
  dataField (encode i) = i.data

theorem nop (data : Word) : Statement (.nop data) := by simp [Statement, encode]

theorem init (data : Word) : Statement (.init data) := by simp [Statement, encode]

theorem update (cnt : BitVec 3) (data : Word) : Statement (.update cnt data) := by simp [Statement, encode]

theorem final (data : Word) : Statement (.final data) := by simp [Statement, encode]

end Sys2Proof.Laws.EncodeFields
end

