-- ==== Sys2Proof/Laws/Step.lean ====
section
/-! SUPPORT. What executing a command, accepting a beat, serving reads and taking a step can do, each said once. -/

namespace Sys2Proof.Machine

open Sys2Proof.Safety

@[simp] theorem mapNext_next (f : State → State) (s : State) : mapNext f (.next s) = .next (f s) := rfl

/-- The effect of a command as a function of the state: every command answers a next state. -/
def effect (i : Instr) (s : State) : State :=
  if s.phase = .faulted then s
  else
    match i with
    | .nop _ => s
    | .init _ => startContext s
    | .update cnt data =>
      if 4 < cnt.toNat then takeFault .badCount (encode i) s
      else if s.phase = .active then appendBytes (updateBytes cnt data) s
      else takeFault .notActive (encode i) s
    | .final _ => if s.phase = .active then finish s else takeFault .notActive (encode i) s

/-- Every command answers its effect; none faults, none is refused. -/
theorem exec_eq (i : Instr) (s : State) : exec i s = .next (effect i s) := by
  cases i <;> simp only [exec, execNop, execInit, execUpdate, execFinal, effect] <;> split_ifs <;>
    first | rfl | contradiction

/-- The effect of an accepted beat, as a function of the state (60_exceptions.md R139). -/
def acceptEffect (c : Beat) (s : State) : State :=
  if s.phase = .faulted then s
  else
    match decode c with
    | .error x => takeFault x c s
    | .ok i => effect i s

theorem acceptBeat_eq (c : Beat) (s : State) : acceptBeat c s = .next (acceptEffect c s) := by
  unfold acceptBeat acceptEffect
  split_ifs with h
  · rfl
  · cases decode c with
    | error x => rfl
    | ok i => exact exec_eq i s

/-- What executing a command leaves alone (10_state.md R39). -/
theorem effect_frame (i : Instr) (s : State) :
    (effect i s).busy = s.busy ∧ (effect i s).log = s.log ∧ (effect i s).inbox = s.inbox ∧
    (effect i s).readings = s.readings ∧ (effect i s).draws = s.draws := by
  have hf := (finish_registers s).2.2.2
  cases i with
  | nop d => simp [effect]
  | init d => simp only [effect]; split_ifs <;> simp
  | update cnt d =>
    have ha := (appendBytes_frame (updateBytes cnt d) s).2
    simp only [SameBeyondContext] at ha
    simp only [effect]; split_ifs <;> simp [ha]
  | final d =>
    simp only [SameBeyondContext] at hf
    simp only [effect]; split_ifs <;> simp [hf]

/-- What accepting a beat leaves alone. -/
theorem acceptEffect_frame (c : Beat) (s : State) :
    (acceptEffect c s).busy = s.busy ∧ (acceptEffect c s).log = s.log ∧ (acceptEffect c s).inbox = s.inbox ∧
    (acceptEffect c s).readings = s.readings ∧ (acceptEffect c s).draws = s.draws := by
  unfold acceptEffect
  split_ifs
  · simp
  · split
    · simp
    · exact effect_frame _ s

/-- Serving any number of reads changes only the readings and the draw counter. -/
theorem serveReads_eq (ports : List ReadPort) (s : State) :
    ∃ rs : List Reading, ports.foldl (fun t p => serveRead p t) s =
      { s with readings := s.readings ++ rs, draws := s.draws + ports.length } := by
  induction ports generalizing s with
  | nil => exact ⟨[], by simp⟩
  | cons p ps ih =>
    obtain ⟨rs, h⟩ := ih (serveRead p s)
    refine ⟨portRead p s :: rs, ?_⟩
    rw [List.foldl_cons, h]
    simp [serveRead]; omega

/-- The reads made while BUSY = 1 leave a ready block, and change only the readings and the draw counter. -/
theorem serveWhileBusy_eq (ports : List ReadPort) (s : State) :
    ∃ rs : List Reading, serveWhileBusy ports s =
      { s with busy := false, readings := s.readings ++ rs, draws := s.draws + ports.length } := by
  obtain ⟨rs, h⟩ := serveReads_eq ports { s with busy := true }
  exact ⟨rs, by simp [serveWhileBusy, h]⟩

@[simp] theorem serveWhileBusy_nil (s : State) : serveWhileBusy [] s = { s with busy := false } := rfl

/-- A step on an offered beat while cmd_ready = 1. -/
theorem step_issue {s : State} {c : Beat} {reads : List ReadPort} {rest : List HostMove} (hb : s.busy = false)
    (hi : s.inbox = .issue c reads :: rest) :
    step s = .next (serveWhileBusy reads (acceptEffect c (logged c rest (beginStep s)))) := by
  simp [step, takeMove, hi, moveIssue, cmdReady, hb, acceptBeat_eq]

/-- A step on a read of a port. -/
theorem step_read {s : State} {p : ReadPort} {rest : List HostMove} (hi : s.inbox = .read p :: rest) :
    step s = .next (serveRead p { beginStep s with inbox := rest }) := by
  simp [step, takeMove, hi, moveRead]

/-- A step on a reset. -/
theorem step_reset {s : State} {held : List ReadPort} {rest : List HostMove} (hi : s.inbox = .reset held :: rest) :
    step s = .next (serveWhileBusy held (resetBlock { beginStep s with inbox := rest })) := by
  simp [step, takeMove, hi, moveReset]

/-- Everything a step can do: it answers a next state, by the host's next move. -/
theorem step_cases (s : State) :
    (s.inbox = [] ∧ step s = .next { beginStep s with busy := false }) ∨
    (∃ rest, s.inbox = .idle :: rest ∧ step s = .next { beginStep s with inbox := rest, busy := false }) ∨
    (∃ p rest, s.inbox = .read p :: rest ∧ step s = .next (serveRead p { beginStep s with inbox := rest })) ∨
    (∃ held rest, s.inbox = .reset held :: rest ∧
      step s = .next (serveWhileBusy held (resetBlock { beginStep s with inbox := rest }))) ∨
    (∃ c reads rest, s.inbox = .issue c reads :: rest ∧ s.busy = true ∧
      step s = .next { beginStep s with busy := false }) ∨
    (∃ c reads rest, s.inbox = .issue c reads :: rest ∧ s.busy = false ∧
      step s = .next (serveWhileBusy reads (acceptEffect c (logged c rest (beginStep s))))) := by
  rcases hi : s.inbox with _ | ⟨m, rest⟩
  · exact .inl ⟨rfl, by simp only [step, takeMove, beginStep_inbox, hi, moveIdle]⟩
  · cases m with
    | idle => exact .inr (.inl ⟨rest, rfl, by simp [step, takeMove, beginStep_inbox, hi, moveIdle]⟩)
    | read p => exact .inr (.inr (.inl ⟨p, rest, rfl, step_read hi⟩))
    | reset held =>
      exact .inr (.inr (.inr (.inl ⟨held, rest, rfl, step_reset hi⟩)))
    | issue c reads =>
      cases hb : s.busy with
      | true =>
        refine .inr (.inr (.inr (.inr (.inl ⟨c, reads, rest, rfl, rfl, ?_⟩))))
        simp [step, takeMove, beginStep_inbox, hi, moveIssue, cmdReady, hb]
      | false => exact .inr (.inr (.inr (.inr (.inr ⟨c, reads, rest, rfl, rfl, step_issue hb hi⟩))))

end Sys2Proof.Machine
end

