-- ==== Sys2Proof/Tests/Slice0.lean ====
section
/-! SUPPORT. Tests with results from the spec (95_test_vectors.md and the worked examples of the rules), and one
witness for the hypotheses of every obligation that has any. -/

namespace Sys2Proof.Tests

open Sys2Proof.Machine Sys2Proof.Safety

/-! ### Small states -/

/-- A block from its first bytes, the others being zero. -/
def blockOf (bytes : List Byte) : Block := Vector.ofFn fun k => bytes.getD k.val 0#8

/-- A context in progress that holds `bytes` and no completed block. -/
def streaming (bytes : List Byte) : State :=
  { State.reset with h := iv, pbuf := blockOf bytes, plen := BitVec.ofNat 6 bytes.length, phase := .active }

/-- The context after INIT and "abc". -/
def abc : State := streaming [0x61#8, 0x62#8, 0x63#8]

/-- A context that holds `n` bytes 0x61. -/
def letters (n : Nat) : State := streaming (List.replicate n 0x61#8)

/-- A finalized context. -/
def closed : State := { State.reset with phase := .finalized }

/-- A faulted block, cause RESERVED_OPCODE. -/
def broken : State :=
  { State.reset with
    phase := .faulted
    fcause := 1#4
    log := [0x4000000000#40]
    faultRecord := [⟨.reservedOpcode, 0x4000000000#40, .uninit⟩] }

/-- A state whose next move is to offer a beat. -/
def offered (s : State) (c : Beat) : State := { s with inbox := [.issue c []] }

/-- The state an outcome answers, the reset state where it answers none. -/
def nextOf : Host.Outcome State Fault Refusal → State
  | .next s => s
  | .fault _ => State.reset
  | .refused _ => State.reset

/-- Whether an outcome is a next state. -/
def isNext : Host.Outcome State Fault Refusal → Bool
  | .next _ => true
  | .fault _ => false
  | .refused _ => false

/-! ### Well-formedness: the ill-formed term of the one check (30_encoding.md R68) -/

theorem test_wellFormed_refuses_count_five : (Instr.update 5#3 0#32).wellFormed = false := by decide

theorem test_wellFormed_accepts_count_four : (Instr.update 4#3 0#32).wellFormed = true := by decide

/-! ### Decoding: words written out from 30_encoding.md R63, R76 and 95_test_vectors.md 2.5, 2.8 -/

/-- OPC 0000, CNT 000, RSV 0, DATA DEADBEEF (2.5, row 2). -/
theorem test_decode_nop : decode 0x00DEADBEEF#40 = .ok (.nop 0xDEADBEEF#32) := by decide

/-- OPC 0001, CNT 000, RSV 0, DATA FFFFFFFF (2.5, row 4). -/
theorem test_decode_init : decode 0x10FFFFFFFF#40 = .ok (.init 0xFFFFFFFF#32) := by decide

/-- OPC 0010, CNT 011, RSV 0, DATA 61626300 (R76). -/
theorem test_decode_update : decode 0x2661626300#40 = .ok (.update 3#3 0x61626300#32) := by decide

/-- OPC 0011, CNT 000, RSV 0, DATA 0 (R76). -/
theorem test_decode_final : decode 0x3000000000#40 = .ok (.final 0#32) := by decide

/-- The rejections of 95_test_vectors.md 2.8, in the priority of R69. -/
theorem test_decode_rejects :
    decode 0xF0FFFFFFFF#40 = .error .reservedOpcode ∧ decode 0x0100000000#40 = .error .reservedField ∧
    decode 0x3E00000000#40 = .error .reservedField ∧ decode 0x2900000000#40 = .error .reservedField ∧
    decode 0x2E00000000#40 = .error .badCount := by decide

/-- The opcode table's match values, and one rejected word. -/
theorem test_decodeTableWord :
    decodeTableWord 40 0x0000000000 = some (.nop 0#32) ∧ decodeTableWord 40 0x1000000000 = some (.init 0#32) ∧
    decodeTableWord 40 0x2000000000 = some (.update 0#3 0#32) ∧
    decodeTableWord 40 0x3000000000 = some (.final 0#32) ∧ decodeTableWord 40 0x5000000000 = none := by decide

/-- 30_encoding.md R76: `UPDATE.B 0x80` and `UPDATE 3, 0x61626300` as text; a fifth byte is rejected (R74). -/
theorem test_assembler :
    (parseLine "update.b 0x80 ; pad".toList = some (some (.updateB 0x80#8))) ∧
    (assemble (.updateB 0x80#8)).map (·.map encode) = some [0x2280000000#40] ∧
    parseLine "UPDATE 3, 0x61626300".toList = some (some (.update 3 0x61626300#32)) ∧
    assemble (.update 5 0#32) = none ∧ parseLine "NOP 1".toList = none := by decide

/-- 95_test_vectors.md program P1, `HASH "abc"`: a string literal stands for its ASCII bytes (R75). -/
theorem test_parse_string :
    parseLine ("hash ".toList ++ [quoteMark] ++ "a;c".toList ++ [quoteMark] ++ " ; note".toList) =
      some (some (.hash [0x61#8, 0x3B#8, 0x63#8])) ∧
    parseLine ("HASH; ".toList ++ [quoteMark, quoteMark]) = none := by decide

/-! ### Primitives and the transform (95_test_vectors.md 2.1 to 2.4) -/

theorem test_rotl32 :
    rotl32 0x80000000#32 1 = 0x00000001#32 ∧ rotl32 0x12345678#32 5 = 0x468ACF02#32 ∧
    rotl32 0x12345678#32 30 = 0x048D159E#32 := by decide

/-- 2.2, row 5. -/
theorem test_mixing :
    ch 0xF0F0F0F0#32 0xCCCCCCCC#32 0xAAAAAAAA#32 = 0xCACACACA#32 ∧
    parity 0xF0F0F0F0#32 0xCCCCCCCC#32 0xAAAAAAAA#32 = 0x96969696#32 ∧
    maj 0xF0F0F0F0#32 0xCCCCCCCC#32 0xAAAAAAAA#32 = 0xE8E8E8E8#32 := by decide

/-- The "abc" padded block (2.3). -/
def abcBlock : Block := (blockOf [0x61#8, 0x62#8, 0x63#8, 0x80#8]).set 63 0x18#8

theorem test_schedule :
    scheduleWord abcBlock 0 = 0x61626380#32 ∧ scheduleWord abcBlock 16 = 0xC2C4C700#32 ∧
    scheduleWord abcBlock 19 = 0x85898E01#32 ∧ scheduleWord abcBlock 79 = 0x822E0879#32 := by decide +kernel

/-- Round 21 of the trace of 2.4, just past the first quadrant edge. -/
theorem test_rounds :
    roundsFrom (schedule abcBlock) (loadWorking iv) 22 =
      ⟨0x33A23BFC#32, 0x1A37B0CA#32, 0x7F67875F#32, 0x77192407#32, 0x20AA99CA#32⟩ := by decide +kernel

/-- 2.4: state all ones, block all ones, which wraps in every feed-forward addition. -/
theorem test_transform :
    transform (Vector.replicate 5 0xFFFFFFFF#32) (Vector.replicate 64 0xFF#8) =
      #v[0x3F48159B#32, 0x2DCE51FA#32, 0x8A1E930A#32, 0x02083B68#32, 0xEF70D6E8#32] := by decide +kernel

/-! ### Commands (95_test_vectors.md 2.5 to 2.8, programs P1 and P7) -/

/-- 2.5: NOP from reset leaves STATUS = 0. -/
theorem test_nop_reset :
    statusWord (nextOf (step (State.reset.withFetchWord 40 0x00DEADBEEF))) = 0x00000000#32 := by decide

/-- 2.5: NOP in ACTIVE with PLEN = 3 leaves STATUS = 0x31. -/
theorem test_nop_active : statusWord (nextOf (exec (.nop 0#32) abc)) = 0x00000031#32 := by decide

/-- 2.5, row 1: INIT from reset. -/
theorem test_init_reset :
    statusWord (nextOf (step (State.reset.withFetchWord 40 0x1000000000))) = 0x00000001#32 ∧
    (nextOf (step (State.reset.withFetchWord 40 0x1000000000))).h =
      #v[0x67452301#32, 0xEFCDAB89#32, 0x98BADCFE#32, 0x10325476#32, 0xC3D2E1F0#32] := by decide

/-- 2.5, rows 4 and 6: INIT restarts an active context and is discarded in FAULTED. -/
theorem test_init_restarts :
    statusWord (nextOf (exec (.init 0xFFFFFFFF#32) abc)) = 0x00000001#32 ∧
    statusWord (nextOf (exec (.init 0#32) broken)) = 0x00000403#32 := by decide

/-- 2.6, row 4: PLEN = 62, UPDATE 4 with 0x3E3F4041 straddles the block boundary. -/
theorem test_update_straddles :
    let t := nextOf (exec (.update 4#3 0x3E3F4041#32) (letters 62))
    t.plen = 2#6 ∧ t.tbits = 512#64 ∧ pending t = [0x40#8, 0x41#8] := by decide +kernel

/-- 2.6, row 6: TBITS wraps modulo 2^64 and nothing faults. -/
theorem test_update_tbits_wraps :
    let t := nextOf (exec (.update 1#3 0#32) { letters 63 with tbits := 0xFFFFFFFFFFFFFE00#64 })
    t.tbits = 0#64 ∧ t.plen = 0#6 ∧ t.phase = .active := by decide +kernel

/-- P1 and the source's vector K1: FINAL after "abc". -/
theorem test_final_abc :
    let t := nextOf (exec (.final 0#32) abc)
    digestWord t.h = 0xA9993E364706816ABA3E25717850C26C9CD0D89D#160 ∧ t.tbits = 24#64 ∧
    statusWord t = 0x00000006#32 := by decide +kernel

/-- 2.7, N = 56: FINAL runs two transforms. -/
theorem test_final_two_blocks :
    let t := nextOf (exec (.final 0#32) (letters 56))
    digestWord t.h = 0xC2DB330F6083854C99D4B5BFB6E8F29F201BE699#160 ∧ t.tbits = 448#64 := by decide +kernel

/-- 2.8: faults and their STATUS, UPDATE in UNINIT, CNT = 5 in UNINIT, OPC 5 in FINALIZED. -/
theorem test_faults :
    statusWord (nextOf (step (offered State.reset 0x2261000000#40))) = 0x00001003#32 ∧
    statusWord (nextOf (step (offered State.reset 0x2A00000000#40))) = 0x00000C03#32 ∧
    statusWord (nextOf (step (offered closed 0x5000000000#40))) = 0x00000403#32 := by decide

/-- 2.8, last row, and P6: a beat in FAULTED is discarded and the first cause stays. -/
theorem test_faulted_discards :
    statusWord (nextOf (step (offered broken 0x2A00000000#40))) = 0x00000403#32 := by decide

/-- P6's fault record: NOT_ACTIVE with its beat. -/
theorem test_fault_record :
    (nextOf (step (offered closed 0x2261000000#40))).faultRecord =
      [⟨.notActive, 0x2261000000#40, .finalized⟩] := by decide

/-- 70_reset_and_hazards.md R166: reset gives PHASE = UNINIT, also from FAULTED (R155). -/
theorem test_reset_leaves_faulted :
    (nextOf (step { broken with inbox := [.reset []] })).phase = .uninit := by decide

/-- 10_state.md R33: a read of STATUS in ACTIVE with PLEN = 3. -/
theorem test_read_status :
    (nextOf (step { abc with inbox := [.read .status] })).readings = [.status 0x00000031#32] := by decide

/-- 42_stream.md R122: 64 bytes pad to two blocks; R127: 51 + 9 bytes of padding for "abc" give 64. -/
theorem test_padding :
    (blocksOf (paddedMessage (List.replicate 64 0x61#8))).length = 2 ∧
    (paddedMessage [0x61#8, 0x62#8, 0x63#8]).length = 64 := by decide +kernel

/-- 70_reset_and_hazards.md R165: a run has ended when no beat of it is left, reads, idle cycles and a reset with its
next run still to come; and not while a beat is. -/
theorem test_run_ended :
    beatsToCome [.read .status, .idle, .reset [], .issue 0x1000000000#40 []] = [] ∧
    beatsToCome [.read .status, .issue 0x1000000000#40 [], .reset []] = [0x1000000000#40] := by decide

/-- 10_state.md R20, no event history: what a step gave back is gone after the next. -/
theorem test_readings_are_the_last_steps :
    (nextOf (step (nextOf (step { abc with inbox := [.read .status, .idle] })))).readings = [] := by decide

/-! ### Witnesses: the hypotheses of each obligation, met together -/

theorem witness_DecodeOfEncode : (Instr.update 4#3 0x61626364#32).wellFormed = true := by decide

theorem witness_EncodeOfDecode : decode 0x2861626364#40 = .ok (.update 4#3 0x61626364#32) := by decide

/-- Each clause at a boundary: OPC 4, RSV = 1 on a legal count, CNT = 1 on INIT, CNT = 5 and CNT = 4 on UPDATE. -/
theorem witness_DecodeRejectsExactlyTheReserved :
    decode 0x4000000000#40 = .error .reservedOpcode ∧ decode 0x2900000000#40 = .error .reservedField ∧
    decode 0x1200000000#40 = .error .reservedField ∧ decode 0x2A00000000#40 = .error .badCount ∧
    decode 0x2800000000#40 = .ok (.update 4#3 0#32) := by decide

/-- An accepted and a rejected count, at the boundary. -/
theorem witness_AssembledCommandsAreWellFormed :
    assemble (.update 4 0#32) = some [.update 4#3 0#32] ∧ assemble (.update 5 0#32) = none := by decide

/-- The first word the recurrence gives and the last. -/
theorem witness_ScheduleFollowsRecurrence : 16 ≤ 16 ∧ 16 < 80 ∧ 16 ≤ 79 ∧ 79 < 80 := by decide

/-- The last round of one quadrant and the first of the next. -/
theorem witness_QuadrantFunctionsAndConstants :
    19 / 20 = 0 ∧ 20 / 20 = 1 ∧ 59 / 20 = 2 ∧ 60 / 20 = 3 ∧ 79 / 20 = 3 ∧ 79 < 80 := by decide

/-- The smallest and the largest rotation, at the lowest and the highest bit. -/
theorem witness_RotationMovesEveryBit : 1 ≤ 1 ∧ 1 ≤ 31 ∧ 0 < 32 ∧ 1 ≤ 31 ∧ 31 ≤ 31 ∧ 31 < 32 := by decide

theorem witness_InitStartsNewContext :
    State.reset.phase ≠ .faulted ∧ abc.phase ≠ .faulted ∧ closed.phase ≠ .faulted := by decide

/-- PLEN = 62 for the clause that stores, 63 for the clause that completes the block. -/
theorem witness_AppendStoresOneByte :
    (letters 62).plen.toNat + 1 < 64 ∧ (letters 63).plen.toNat + 1 = 64 := by decide

/-- CNT = 4 just short of the block, at it, and past it. -/
theorem witness_UpdateAppendsItsBytes :
    (letters 59).phase = .active ∧ (letters 60).phase = .active ∧ (letters 63).phase = .active ∧
    (4#3).toNat ≤ 4 ∧ (letters 59).plen.toNat + (4#3).toNat < 64 ∧
    64 ≤ (letters 60).plen.toNat + (4#3).toNat ∧ 64 ≤ (letters 63).plen.toNat + (4#3).toNat := by decide

/-- A byte that is not stored to, and one that is, after the wrap. -/
theorem witness_UpdateStoresOnlyAtAppendAddresses :
    (letters 62).phase = .active ∧ (4#3).toNat ≤ 4 ∧ 3 < (4#3).toNat ∧
    appendAddress (appendBytes ((updateBytes 4#3 0x3E3F4041#32).take 3) (letters 62)) = 1 := by decide +kernel

/-- Two DATA fields that agree in the three used lanes and differ in the fourth (P4). -/
theorem witness_UnusedLanesHaveNoEffect :
    abc.phase = .active ∧ (3#3).toNat ≤ 4 ∧ (0x61616100#32 ≠ 0x616161FF#32) ∧
    ∀ j, j < (3#3).toNat →
      (0x61616100#32).extractLsb' (24 - 8 * j) 8 = (0x616161FF#32).extractLsb' (24 - 8 * j) 8 := by decide

/-- The first word of a block, and the last, which completes it. -/
theorem witness_AlignedBeatIsMessageWord :
    (letters 0).phase = .active ∧ (letters 0).plen.toNat = 4 * (0 : Fin 16).val ∧
    (letters 60).phase = .active ∧ (letters 60).plen.toNat = 4 * (15 : Fin 16).val := by decide

/-- "aaaaaaaaaa" in chunks of 3, 4 and 3 and in chunks of 4, 4 and 2 with a NOP between. -/
theorem witness_ChunkingInvariance :
    (letters 0).phase = .active ∧
    streamOf [.update 3#3 0x61616100#32, .update 4#3 0x61616161#32, .update 3#3 0x616161FF#32] =
      some (List.replicate 10 0x61#8) ∧
    streamOf [.update 4#3 0x61616161#32, .nop 0#32, .update 4#3 0x61616161#32, .update 2#3 0x61610000#32] =
      some (List.replicate 10 0x61#8) := by decide

/-- n0 = 55 for one transform, n0 = 56 for two. -/
theorem witness_FinalPadsAtThreshold :
    (letters 55).phase = .active ∧ (letters 55).plen.toNat ≤ 55 ∧
    (letters 56).phase = .active ∧ 56 ≤ (letters 56).plen.toNat := by decide

theorem witness_FinalClosesContext :
    (letters 55).phase = .active ∧ (54 : Fin 64).val < (letters 55).plen.toNat ∧
    (letters 55).plen.toNat ≤ 55 := by decide

theorem witness_CommandsConsumeCountedBlocks :
    (letters 60).phase = .active ∧ (Instr.update 4#3 0#32).wellFormed = true ∧
    (∀ d, Instr.update 4#3 0#32 ≠ .init d) ∧ transformsRun (.update 4#3 0#32) (letters 60) = 1 :=
  ⟨rfl, rfl, (fun _ h => by cases h), by decide⟩

/-- A context in progress whose log is that of its message: INIT, NOP. -/
def started : State := { letters 0 with log := [0x1000000000#40, 0x0000000000#40] }

theorem witness_LengthFieldCountsMessageBits :
    started.phase = .active ∧ StreamInv started ∧ (messageOf started.log).length = 0 :=
  ⟨rfl, ⟨fun _ => ⟨rfl, rfl, by decide, by decide⟩, fun h => nomatch h⟩, by decide⟩

/-- UPDATE with no byte and FINAL, in UNINIT and in FINALIZED. -/
theorem witness_StreamCommandsFaultOutsideActive :
    State.reset.phase = .uninit ∧ closed.phase = .finalized ∧ (0#3).toNat ≤ 4 ∧ (4#3).toNat ≤ 4 := by decide

theorem witness_IllFormedUpdateFaultsBadCount : 4 < (5#3).toNat ∧ abc.phase ≠ .faulted := by decide

/-- A fault by decoding, and one by phase. -/
theorem witness_FaultWritesPhaseAndCauseOnly :
    (offered abc 0x4000000000#40).busy = false ∧ (offered abc 0x4000000000#40).inbox = [.issue 0x4000000000#40 []] ∧
    faultOf (offered abc 0x4000000000#40).phase (decode 0x4000000000#40) = some .reservedOpcode ∧
    faultOf (offered closed 0x3000000000#40).phase (decode 0x3000000000#40) = some .notActive := by decide

/-- Each clause: two causes at once (RSV = 1 and OPC 4; RSV = 1 and CNT = 5; CNT = 5 and UNINIT), one, none. -/
theorem witness_FirstCauseIsReported :
    (offered State.reset 0x4100000000#40).busy = false ∧ (offered State.reset 0x4100000000#40).phase ≠ .faulted ∧
    4 ≤ (opcField 0x4100000000#40).toNat ∧ rsvField 0x2B00000000#40 = 1#1 ∧
    4 < (cntField 0x2B00000000#40).toNat ∧ 4 < (cntField 0x2A00000000#40).toNat ∧
    opcField 0x2000000000#40 = 2#4 ∧ opcField 0x1000000000#40 = 1#4 := by decide

theorem witness_FaultedDiscardsEveryBeat :
    (offered broken 0x1000000000#40).phase = .faulted ∧ (offered broken 0x1000000000#40).busy = false ∧
    (offered broken 0x1000000000#40).inbox = [.issue 0x1000000000#40 []] := by decide

/-- A step that is no reset, and a reset. -/
theorem witness_OnlyResetLeavesFaulted :
    broken.phase = .faulted ∧ (∀ held rest, (offered broken 0x1000000000#40).inbox ≠ .reset held :: rest) ∧
    { broken with inbox := [.reset []] }.inbox = [.reset []] :=
  ⟨rfl, fun _ _ h => (nomatch (List.cons.inj h).1), rfl⟩

theorem witness_FaultsArePrecise :
    isNext (exec (.final 0#32) closed) = true ∧ (nextOf (exec (.final 0#32) closed)).phase = .faulted := by decide

theorem witness_StepRunsTheDecodedCommand :
    (offered abc 0x3000000000#40).busy = false ∧ (offered abc 0x3000000000#40).inbox = [.issue 0x3000000000#40 []] ∧
    decode 0x3000000000#40 = .ok (.final 0#32) ∧ decodeTableWord 40 0x3000000000 = some (.final 0#32) := by decide

theorem witness_PhaseFollowsTransitionTable :
    (offered abc 0x3000000000#40).busy = false ∧
    (offered abc 0x3000000000#40).inbox = [.issue 0x3000000000#40 []] := by decide

/-- No move, an idle move, and a read. -/
theorem witness_IdleHoldsAllState :
    abc.busy = false ∧ abc.inbox = [] ∧ { abc with inbox := [.idle] }.inbox = [.idle] ∧
    { abc with inbox := [.read .digest] }.inbox = [.read .digest] := by decide

theorem witness_BusyBlockAcceptsNoBeat :
    { offered abc 0x3000000000#40 with busy := true }.busy = true ∧
    { offered abc 0x3000000000#40 with busy := true }.inbox = [.issue 0x3000000000#40 []] := by decide

theorem witness_ReadyBetweenCommands :
    (offered State.reset 0#40).busy = false ∧ isNext (step (offered State.reset 0#40)) = true := by decide

/-- Legal latencies, one cycle each; and ACTIVE on both sides of a block end and of the padding threshold. -/
theorem witness_EveryCommandTakesACycle :
    (⟨1, 1, fun _ => 1, fun _ => 1⟩ : Config.Latencies).Legal ∧
    (letters 59).phase = .active ∧ (letters 59).plen.toNat + (4#3).toNat < 64 ∧
    (letters 60).phase = .active ∧ ¬ (letters 60).plen.toNat + (4#3).toNat < 64 ∧ (4#3).toNat ≤ 4 ∧
    (letters 55).phase = .active ∧ (letters 55).plen.toNat ≤ 55 ∧ ¬ (letters 56).plen.toNat ≤ 55 :=
  ⟨⟨Nat.le_refl 1, Nat.le_refl 1, fun _ => Nat.le_refl 1, fun _ => Nat.le_refl 1⟩, by decide⟩

theorem witness_StatusReadGivesItsFields :
    { abc with inbox := [.read .status] }.busy = false ∧
    { abc with inbox := [.read .status] }.inbox = [.read .status] := by decide

theorem witness_StatusReadWhileBusyShowsBusy :
    { abc with inbox := [.issue 0x3000000000#40 [.status]] }.busy = false ∧
    { abc with inbox := [.issue 0x3000000000#40 [.status]] }.inbox = [.issue 0x3000000000#40 [.status]] := by decide

theorem witness_DigestReadGivesItsBytes :
    { closed with inbox := [.read .digest] }.busy = false ∧
    { closed with inbox := [.read .digest] }.phase = .finalized ∧
    { closed with inbox := [.read .digest] }.inbox = [.read .digest] := by decide

/-- STATUS in ACTIVE, and DIGEST in FINALIZED. -/
theorem witness_ReadsAreIdempotent :
    { abc with inbox := [.read .status, .read .status] }.busy = false ∧
    { closed with inbox := [.read .digest, .read .digest] }.busy = false ∧
    { closed with inbox := [.read .digest, .read .digest] }.phase = .finalized := by decide

theorem witness_ResetLeavesUninit : { broken with inbox := [.reset []] }.inbox = [.reset []] := by decide

/-- A faulted state that the invariant admits, and a step from it; and one outside FAULTED. -/
theorem witness_FaultStateStaysCoherent :
    FaultCoherent broken ∧ isNext (step broken) = true ∧ FaultCoherent abc :=
  ⟨.inr ⟨rfl, _, rfl, rfl, by decide, by decide⟩, by decide, .inl ⟨by decide, rfl, rfl⟩⟩

theorem witness_ContextFollowsTheMessage :
    StreamInv started ∧ isNext (step { started with inbox := [.issue 0x2661626300#40 []] }) = true :=
  ⟨witness_LengthFieldCountsMessageBits.2.1, by decide⟩

/-- Two active contexts that differ in a stale byte only. -/
theorem witness_HiddenValuesNeverLeak :
    Indistinct abc { abc with pbuf := abc.pbuf.set 3 0xFF#8 } ∧ abc ≠ { abc with pbuf := abc.pbuf.set 3 0xFF#8 } ∧
    isNext (step abc) = true :=
  ⟨⟨rfl, rfl, rfl, rfl, rfl, rfl, rfl, rfl, fun _ => ⟨rfl, rfl, rfl, by decide⟩, fun _ => rfl⟩, by decide, by decide⟩

/-- "aaaaa", split and interleaved with a NOP, from two phases. -/
theorem witness_TransformsConsumePaddedMessage :
    State.reset.phase ≠ .faulted ∧ closed.phase ≠ .faulted ∧
    streamOf [.update 2#3 0x61610000#32, .nop 0#32, .update 3#3 0x616161FF#32] = some (List.replicate 5 0x61#8) := by
  decide

/-- N = 55 and N = 56, the two sides of the threshold, from a state that is not FAULTED. -/
theorem witness_TransformCountOfMessage :
    State.reset.phase ≠ .faulted ∧ 55 % 64 ≤ 55 ∧ ¬ 56 % 64 ≤ 55 ∧
    streamOf (pushBytes (List.replicate 55 0x61#8)) = some (List.replicate 55 0x61#8) ∧
    streamOf (pushBytes (List.replicate 56 0x61#8)) = some (List.replicate 56 0x61#8) := by decide +kernel

theorem witness_ProtocolLeavesDigest :
    abc.phase ≠ .faulted ∧ streamOf [.update 1#3 0x61000000#32, .update 0#3 0#32] = some [0x61#8] := by decide

/-- A clean start for the program HASH "abc", with an idle cycle, reads and a read inside FINAL between its beats. -/
theorem witness_EndOfRunDigestOfMessage :
    let s := { State.reset with
      inbox := [.issue 0x1000000000#40 [], .idle, .read .status, .issue 0x2661626300#40 [],
        .issue 0x3000000000#40 [.status], .read .digest, .reset []] }
    CleanStart s ∧ LengthInContract [0x61#8, 0x62#8, 0x63#8].length ∧
    beatsToCome s.inbox = (hashBytes [0x61#8, 0x62#8, 0x63#8]).map encode :=
  ⟨⟨rfl, rfl, rfl, rfl, rfl⟩, by unfold LengthInContract; decide, by decide⟩

/-- A well-formed log, and one that faults. -/
theorem witness_WellformedLogsRunWithoutFault :
    CleanStart { State.reset with inbox := issueAll [0x1000000000#40, 0x3000000000#40] } ∧
    wellformedFrom .uninit (beatsToCome (issueAll [0x1000000000#40, 0x3000000000#40])) = true ∧
    wellformedFrom .uninit (beatsToCome (issueAll [0x3000000000#40])) = false :=
  ⟨⟨rfl, rfl, rfl, rfl, rfl⟩, by decide, by decide⟩

/-- One block record with two different sides at its ports. -/
theorem witness_BlockRecordDeterminesItself :
    (offered abc 0x3000000000#40).toBlockState = abc.toBlockState ∧
    (offered { abc with draws := 7 } 0x3000000000#40).toBlockState = abc.toBlockState ∧
    (offered { abc with draws := 7 } 0x3000000000#40).busy = false ∧ abc.busy = false ∧
    { abc with inbox := [.issue 0x3000000000#40 [.status]] }.inbox = [.issue 0x3000000000#40 [.status]] := by decide

theorem witness_InstancesAreIndependent :
    (0 : Fin 2) ≠ 1 ∧ (platformReset 2)[(0 : Fin 2)] = State.reset := by decide

end Sys2Proof.Tests
end

/-! PROOFS. The fields of the STATUS word, what a read of a port does between two commands, and O42 (10_state.md R33,
R34; 20_memory.md R49). -/

namespace Sys2Proof.Machine

open Sys2Proof.Safety

/-! ### The fields of the STATUS word

Each proof drops the fields below its own, one `of_le` for each; its own is then the lowest one left. -/

section
open BitVec

theorem statusWord_phase (s : State) : (statusWord s).extractLsb' 0 2 = s.phase.code :=
  extractLsb'_append_eq_right

theorem statusWord_digestValid (s : State) : (statusWord s).extractLsb' 2 1 = ofBool (digestValid s) := by
  rw [statusWord, extractLsb'_append_eq_of_le (by decide)]
  exact extractLsb'_append_eq_right

theorem statusWord_busy (s : State) : (statusWord s).extractLsb' 3 1 = ofBool s.busy := by
  rw [statusWord, extractLsb'_append_eq_of_le (by decide), extractLsb'_append_eq_of_le (by decide)]
  exact extractLsb'_append_eq_right

theorem statusWord_plenView (s : State) : (statusWord s).extractLsb' 4 6 = plenView s := by
  rw [statusWord, extractLsb'_append_eq_of_le (by decide), extractLsb'_append_eq_of_le (by decide),
    extractLsb'_append_eq_of_le (by decide)]
  exact extractLsb'_append_eq_right

theorem statusWord_fcause (s : State) : (statusWord s).extractLsb' 10 4 = s.fcause := by
  rw [statusWord, extractLsb'_append_eq_of_le (by decide), extractLsb'_append_eq_of_le (by decide),
    extractLsb'_append_eq_of_le (by decide), extractLsb'_append_eq_of_le (by decide)]
  exact extractLsb'_append_eq_right

/-- The reserved bits [31:14] of STATUS are hardwired to 0 (R33). -/
theorem statusWord_reserved (s : State) : (statusWord s).extractLsb' 14 18 = 0#18 := by
  rw [statusWord, extractLsb'_append_eq_of_le (by decide), extractLsb'_append_eq_of_le (by decide),
    extractLsb'_append_eq_of_le (by decide), extractLsb'_append_eq_of_le (by decide)]
  exact extractLsb'_append_eq_left

end

theorem ofBool_digestValid (s : State) :
    BitVec.ofBool (digestValid s) = if s.phase = .finalized then 1#1 else 0#1 := by
  by_cases h : s.phase = .finalized <;> simp [digestValid, h]

/-! ### A read between two commands -/

/-- Serving a read changes no register of the block: "No read has a side effect" (20_memory.md R49). -/
theorem serveRead_sameRegisters (p : ReadPort) (s : State) : SameRegisters s (serveRead p s) :=
  ⟨rfl, rfl, rfl, rfl, rfl, rfl⟩

/-- With BUSY = 0 the host gets the STATUS word of the very state it reads. -/
theorem statusRead_of_ready {s : State} (hb : s.busy = false) : statusRead s = statusWord s := by
  simp [statusRead, hb]

/-- A step on a STATUS read with BUSY = 0: the one reading is the STATUS word, and no register changes. -/
theorem step_readStatus {s : State} {rest : List HostMove} (hb : s.busy = false)
    (hi : s.inbox = .read .status :: rest) :
    ∃ t, step s = .next t ∧ t.readings = [.status (statusWord s)] ∧ SameRegisters s t := by
  refine ⟨_, step_read hi, ?_, serveRead_sameRegisters .status _⟩
  rw [serveRead_readings, portRead, statusRead_of_ready (by exact hb)]
  rfl

/-- Settles O42: the step on a STATUS read gives back `statusWord`, whose fields are read off one by one. -/
theorem statusReadGivesItsFields : Obligations.StatusReadGivesItsFields := by
  intro s rest hb hi
  obtain ⟨t, hstep, hread, hregs⟩ := step_readStatus hb hi
  refine ⟨t, statusWord s, hstep, hread, ?phase, ?digestValid, ?busy, statusWord_plenView s,
    statusWord_fcause s, statusWord_reserved s, hregs⟩
  case phase => rw [statusWord_phase]; cases s.phase <;> rfl
  case digestValid => rw [statusWord_digestValid, ofBool_digestValid]
  case busy => rw [statusWord_busy, hb]; rfl

end Sys2Proof.Machine

/-! PROOFS. A run of appends on either side of a block end, and O18 (20_memory.md R48; 42_stream.md R111, R112). -/

namespace Sys2Proof.Machine

open Sys2Proof.Safety

/-- A sequence with room for one block and not for two has its first 64 bytes as its one block. -/
theorem blocksOf_eq_singleton {l : List Byte} (h : l.length / 64 = 1) :
    ∃ b : Block, b.toList = l.take 64 ∧ blocksOf l = [b] := by
  have hlen : (l.take 64).length = 64 := by rw [List.length_take]; omega
  let b : Block := ⟨(l.take 64).toArray, hlen⟩
  have htail : blocksOf (l.drop 64) = [] := blocksOf_short (by rw [List.length_drop]; omega)
  refine ⟨b, rfl, ?_⟩
  calc blocksOf l = blocksOf (b.toList ++ l.drop 64) := congrArg blocksOf (List.take_append_drop 64 l).symm
    _ = [b] := by rw [blocksOf_cons, htail]

/-- Appends that do not fill the buffer only extend it. -/
theorem appendBytes_within_block {xs : List Byte} {s : State} (h : s.plen.toNat + xs.length < 64) :
    (appendBytes xs s).h = s.h ∧ (appendBytes xs s).tbits = s.tbits ∧
    (appendBytes xs s).plen.toNat = s.plen.toNat + xs.length ∧
    pending (appendBytes xs s) = pending s ++ xs := by
  obtain ⟨hh, htbits, hpending⟩ := appendBytes_spec xs s
  have hlen : (pending s ++ xs).length < 64 := by rwa [List.length_append, pending_length]
  rw [blocksOf_short hlen] at hh
  rw [Nat.div_eq_of_lt hlen] at htbits hpending
  exact ⟨hh, by simpa using htbits, by rw [appendBytes_plen, Nat.mod_eq_of_lt h], hpending⟩

/-- Appends that reach the block end and not the next one run one transform, on the first 64 of the bytes, and
buffer the rest from PBUF[0]. -/
theorem appendBytes_across_block {xs : List Byte} {s : State} (h : (s.plen.toNat + xs.length) / 64 = 1) :
    (appendBytes xs s).tbits = s.tbits + 512#64 ∧
    (appendBytes xs s).plen.toNat = s.plen.toNat + xs.length - 64 ∧
    pending (appendBytes xs s) = (pending s ++ xs).drop 64 ∧
    ∃ b : Block, b.toList = (pending s ++ xs).take 64 ∧ (appendBytes xs s).h = transform s.h b := by
  obtain ⟨hh, htbits, hpending⟩ := appendBytes_spec xs s
  have hdiv : (pending s ++ xs).length / 64 = 1 := by rwa [List.length_append, pending_length]
  obtain ⟨b, hb, hblocks⟩ := blocksOf_eq_singleton hdiv
  rw [hdiv] at htbits hpending
  rw [hblocks] at hh
  exact ⟨htbits, by rw [appendBytes_plen]; omega, hpending, b, hb, hh⟩

/-- A legal UPDATE in ACTIVE completes, and its effect is the appends of its operand (42_stream.md R112). -/
theorem exec_update_active {cnt : BitVec 3} (data : Word) {s : State} (hp : s.phase = .active)
    (hc : cnt.toNat ≤ 4) : exec (.update cnt data) s = .next (appendBytes (updateBytes cnt data) s) := by
  rw [exec_eq]
  simp [effect, hp, Nat.not_lt.mpr hc]

/-- Settles O18: the UPDATE is a run of CNT appends, short of the block end or across it; as PLEN < 64 and CNT ≤ 4 it
never reaches a second one. -/
theorem updateAppendsItsBytes : Obligations.UpdateAppendsItsBytes := by
  intro cnt data s hp hc
  have hplen := s.plen.isLt
  have hlen := updateBytes_length cnt data
  obtain ⟨hphase, hframe⟩ := appendBytes_frame (updateBytes cnt data) s
  refine ⟨_, exec_update_active data hp hc, fun hlt => ?within, fun hge => ?across, hphase.trans hp, hframe⟩
  case within => simpa only [hlen] using appendBytes_within_block (xs := updateBytes cnt data) (by rwa [hlen])
  case across =>
    simpa only [hlen] using appendBytes_across_block (xs := updateBytes cnt data) (by rw [hlen]; omega)

end Sys2Proof.Machine

/-! PROOFS. The worked encodings, O4 (30_encoding.md R76). -/

namespace Sys2Proof.Machine

/-- Settles O4: the ten rows of R76 are closed, so the assembler, the encoder and the decoder are evaluated on each. -/
theorem workedEncodingsDecode : Obligations.WorkedEncodingsDecode := by
  unfold Obligations.WorkedEncodingsDecode
  refine ⟨?assembled, ?nop, ?init, ?update3, ?update4, ?updateB, ?update0, ?final, ?opcode5, ?count5, ?reserved1⟩
  case assembled => decide
  case nop | init | update3 | update4 | updateB | update0 | final => decide
  case opcode5 | count5 | reserved1 => decide

end Sys2Proof.Machine

/-! PROOFS. INIT outside FAULTED, O16 (40_init.md R81, R82). -/

namespace Sys2Proof.Machine

/-- Outside FAULTED, INIT completes with the writes of `startContext`, whatever its DATA (R82). -/
theorem exec_init_of_not_faulted (data : Word) {s : State} (hp : s.phase ≠ .faulted) :
    exec (.init data) s = .next (startContext s) := by
  rw [exec_eq, effect, if_neg hp]

/-- Settles O16: the phase gate is open, and `startContext` with `iv` written out is the state of R81 and R82. -/
theorem initStartsNewContext : Obligations.InitStartsNewContext := by
  intro data s hp
  rw [exec_init_of_not_faulted data hp, startContext, iv]

end Sys2Proof.Machine

/-! PROOFS. The message schedule, O8 (41_transform.md R91). -/

namespace Sys2Proof.Machine

/-- Each extension step appends one word. -/
@[simp] theorem extendSchedule_length (n : Nat) (w : List Word) : (extendSchedule n w).length = w.length + n := by
  induction n generalizing w with
  | zero => rfl
  | succ n ih => rw [extendSchedule, ih, List.length_append, List.length_singleton]; omega

/-- A schedule is the start of every extension of it. -/
theorem prefix_extendSchedule (n : Nat) (w : List Word) : w <+: extendSchedule n w := by
  induction n generalizing w with
  | zero => exact List.prefix_rfl
  | succ n ih => exact (List.prefix_append w [nextWord w]).trans (ih _)

/-- An extension keeps the words that are there. -/
theorem extendSchedule_getD_of_lt (n : Nat) {t : Nat} {w : List Word} (ht : t < w.length) :
    (extendSchedule n w).getD t 0 = w.getD t 0 := by
  obtain ⟨added, hadded⟩ := prefix_extendSchedule n w
  rw [← hadded, List.getD_append _ _ _ _ ht]

/-- The word appended after the first `t` words of a schedule, read in that schedule. -/
theorem nextWord_take {w : List Word} {t : Nat} (h0 : 0 < t) (ht : t ≤ w.length) :
    nextWord (w.take t) =
      rotl32 (w.getD (t - 3) 0 ^^^ w.getD (t - 8) 0 ^^^ w.getD (t - 14) 0 ^^^ w.getD (t - 16) 0) 1 := by
  have hread : ∀ k, 0 < k → (w.take t).getD (t - k) 0 = w.getD (t - k) 0 := fun k hk => by
    rw [List.getD, List.getElem?_take_of_lt (by omega), ← List.getD]
  rw [nextWord, List.length_take_of_le ht]
  simp only [hread, Nat.ofNat_pos]

/-- Every word that an extension adds is the next word after those before it. -/
theorem extendSchedule_getD {n t : Nat} {w : List Word} (hlo : w.length ≤ t) (hhi : t < w.length + n) :
    (extendSchedule n w).getD t 0 = nextWord ((extendSchedule n w).take t) := by
  induction n generalizing w with
  | zero => omega
  | succ n ih =>
    obtain rfl | hlt := Nat.eq_or_lt_of_le hlo
    · have hbefore : (extendSchedule (n + 1) w).take w.length = w :=
        (List.prefix_iff_eq_take.mp (prefix_extendSchedule (n + 1) w)).symm
      rw [hbefore, extendSchedule, extendSchedule_getD_of_lt n (by simp)]
      simp
    · have hlen : (w ++ [nextWord w]).length = w.length + 1 := List.length_append
      exact ih (by omega) (by omega)

/-- The schedule has 80 words. -/
@[simp] theorem schedule_length (b : Block) : (schedule b).length = 80 := by
  rw [schedule, extendSchedule_length, List.length_ofFn]

/-- The first 16 words of the schedule are the words of the block. -/
theorem scheduleWord_message (b : Block) (t : Fin 16) : scheduleWord b t.val = messageWord b t := by
  have hlen : t.val < (List.ofFn (messageWord b)).length := by rw [List.length_ofFn]; exact t.isLt
  rw [scheduleWord, schedule, extendSchedule_getD_of_lt 64 hlen, List.getD_eq_getElem _ _ hlen, List.getElem_ofFn]

/-- The other words of the schedule follow the recurrence of R91. -/
theorem scheduleWord_recurrence (b : Block) {t : Nat} (hlo : 16 ≤ t) (hhi : t < 80) :
    scheduleWord b t =
      rotl32 (scheduleWord b (t - 3) ^^^ scheduleWord b (t - 8) ^^^ scheduleWord b (t - 14) ^^^
        scheduleWord b (t - 16)) 1 := by
  have hnext : scheduleWord b t = nextWord ((schedule b).take t) :=
    extendSchedule_getD (by simpa using hlo) (by simpa using hhi)
  rw [hnext, nextWord_take (by omega) (by rw [schedule_length]; omega)]
  rfl

/-- Settles O8: 16 words extended by 64, the first words kept and each added word the next of those before it. -/
theorem scheduleFollowsRecurrence : Obligations.ScheduleFollowsRecurrence := fun b =>
  ⟨schedule_length b, scheduleWord_message b, fun _ => scheduleWord_recurrence b⟩

end Sys2Proof.Machine

/-! PROOFS. The mixing function and the round constant of a quadrant, O9 (41_transform.md R92, R93). -/

namespace Sys2Proof.Machine

/-- The bounds that pick a round's mixing function and constant are those of its quadrant `t div 20` (R93). -/
theorem quadrant_cases {t : Nat} (ht : t < 80) :
    (t < 20 ∧ t / 20 = 0) ∨ (¬ t < 20 ∧ t < 40 ∧ t / 20 = 1) ∨
    (¬ t < 20 ∧ ¬ t < 40 ∧ t < 60 ∧ t / 20 = 2) ∨ (¬ t < 20 ∧ ¬ t < 40 ∧ ¬ t < 60 ∧ t / 20 = 3) := by
  omega

/-- Settles O9, one quadrant at a time. -/
theorem quadrantFunctionsAndConstants : Obligations.QuadrantFunctionsAndConstants := by
  intro t b c d ht
  obtain ⟨h20, hq⟩ | ⟨h20, h40, hq⟩ | ⟨h20, h40, h60, hq⟩ | ⟨h20, h40, h60, hq⟩ := quadrant_cases ht
  · simp [mix, roundConstant, ch, h20, hq]
  · simp [mix, roundConstant, parity, h20, h40, hq]
  · simp [mix, roundConstant, maj, h20, h40, h60, hq]
  · simp [mix, roundConstant, parity, h20, h40, h60, hq]

end Sys2Proof.Machine

/-! PROOFS. The 80 rounds of the transform, O10 (41_transform.md R94 to R96). -/

namespace Sys2Proof.Machine

/-- Round `t` reads the word `W[t]` of the schedule (R95). -/
theorem roundsFrom_schedule_succ (b : Block) (v : Working) (t : Nat) :
    roundsFrom (schedule b) v (t + 1) = roundStep t (scheduleWord b t) (roundsFrom (schedule b) v t) := rfl

/-- Settles O10: the sequence is that of the working variables after each number of rounds. -/
theorem transformRunsEightyRounds : Obligations.TransformRunsEightyRounds := fun s b =>
  ⟨roundsFrom (schedule b) (loadWorking s), rfl, fun t _ => roundsFrom_schedule_succ b (loadWorking s) t, rfl⟩

end Sys2Proof.Machine

/-! PROOFS. One byte append, O17 (42_stream.md R111). -/

namespace Sys2Proof.Machine

/-- An append writes the one byte at PLEN, whether or not it completes the block. -/
theorem appendByte_pbuf (x : Byte) (s : State) : (appendByte x s).pbuf = s.pbuf.setIfInBounds s.plen.toNat x := by
  have hplen := s.plen.isLt
  obtain hshort | hfull : s.plen.toNat < 63 ∨ s.plen.toNat = 63 := by omega
  · rw [appendByte_short x s hshort]
  · rw [appendByte_full x s hfull, completeBlock_pbuf, writePbuf_pbuf, hfull]

theorem readPbuf_appendByte (x : Byte) (s : State) (k : Fin 64) :
    readPbuf (appendByte x s) k = if k.val = s.plen.toNat then x else readPbuf s k := by
  simp only [readPbuf, appendByte_pbuf, Fin.getElem_fin, Vector.getElem_setIfInBounds, eq_comm]

/-- Settles O17: the stored byte and the frame are those of every append; the other registers follow the case that PLEN
decides. -/
theorem appendStoresOneByte : Obligations.AppendStoresOneByte := by
  intro x s
  obtain ⟨hphase, hframe⟩ := appendByte_frame x s
  refine ⟨readPbuf_appendByte x s, fun hshort => ?short, fun hfull => ?full, hphase, hframe⟩
  case short =>
    rw [appendByte_short x s (by omega)]
    exact ⟨(BitVec.toNat_ofNat _ _).trans (Nat.mod_eq_of_lt hshort), rfl, rfl⟩
  case full =>
    rw [appendByte_full x s (by omega)]
    exact ⟨rfl, rfl, rfl⟩

end Sys2Proof.Machine

/-! PROOFS. Lists of UPDATEs and NOPs as one run of appends, O22 (42_stream.md R123). -/

namespace Sys2Proof.Machine

open Sys2Proof.Safety

/-- The byte sequence of a list is that of its first command, then that of the others. -/
theorem streamOf_cons_eq_some {i : Instr} {is : List Instr} {x : List Byte} (h : streamOf (i :: is) = some x) :
    ∃ y z, streamBytes i = some y ∧ streamOf is = some z ∧ x = y ++ z := by
  rw [streamOf] at h
  split at h
  next y z hy hz => exact ⟨y, z, hy, hz, (Option.some.inj h).symm⟩
  next => cases h

/-- A command of a stream is a NOP without a byte or a legal UPDATE with its operand. -/
theorem streamBytes_cases {i : Instr} {x : List Byte} (h : streamBytes i = some x) :
    (∃ data, i = .nop data ∧ x = []) ∨
    (∃ cnt data, i = .update cnt data ∧ cnt.toNat ≤ 4 ∧ x = updateBytes cnt data) := by
  cases i with
  | nop data => exact .inl ⟨data, rfl, (Option.some.inj h).symm⟩
  | update cnt data =>
    rw [streamBytes] at h
    split_ifs at h with hc
    exact .inr ⟨cnt, data, rfl, hc, (Option.some.inj h).symm⟩
  | init | final => cases h

/-- In ACTIVE a command of a stream appends its bytes. -/
theorem exec_stream {i : Instr} {x : List Byte} {s : State} (hp : s.phase = .active)
    (h : streamBytes i = some x) : exec i s = .next (appendBytes x s) := by
  obtain ⟨data, rfl, rfl⟩ | ⟨cnt, data, rfl, hc, rfl⟩ := streamBytes_cases h
  · rfl
  · exact exec_update_active data hp hc

/-- A list of commands goes on from the state its first command answers. -/
theorem runInstrs_cons {i : Instr} {s t : State} (is : List Instr) (h : exec i s = .next t) :
    runInstrs (i :: is) s = runInstrs is t := by
  simp only [runInstrs, h]

/-- In ACTIVE a list of UPDATEs and NOPs completes, and its one effect is the appends of its byte sequence. -/
theorem runInstrs_stream {is : List Instr} {x : List Byte} {s : State} (hp : s.phase = .active)
    (h : streamOf is = some x) : runInstrs is s = .next (appendBytes x s) := by
  induction is generalizing x s with
  | nil => cases h; rfl
  | cons i is ih =>
    obtain ⟨y, z, hy, hz, rfl⟩ := streamOf_cons_eq_some h
    have hp' : (appendBytes y s).phase = .active := (appendBytes_frame y s).1.trans hp
    rw [runInstrs_cons is (exec_stream hp hy), ih hp' hz, appendBytes_append]

/-- Settles O22: both lists leave the appends of the one byte sequence. -/
theorem chunkingInvariance : Obligations.ChunkingInvariance := fun _ _ x s hp his hjs =>
  ⟨appendBytes x s, runInstrs_stream hp his, runInstrs_stream hp hjs⟩

end Sys2Proof.Machine

/-! PROOFS. The bytes of FINAL's blocks, O23 (42_stream.md R116, R117). -/

namespace Sys2Proof.Machine

/-- FINAL in ACTIVE completes, and its effect is `finish` (R118). -/
theorem exec_final_active (data : Word) {s : State} (hp : s.phase = .active) :
    exec (.final data) s = .next (finish s) := by
  rw [exec_eq]
  simp [effect, hp]

/-- Below the end of the zero fill a marked block is the bytes before the marker, the marker and zeros (R116). -/
theorem markedFill_getElem {n hi k : Nat} (b : Block) (hk : k < 64) (hhi : k < hi) :
    (zeroFill (n + 1) hi (b.setIfInBounds n 0x80#8))[k] =
      if k < n then b[k] else if k = n then 0x80#8 else 0#8 := by
  rw [zeroFill_getElem, Vector.getElem_setIfInBounds]
  obtain hlt | rfl | hgt := Nat.lt_trichotomy k n
  · simp [hlt, hlt.ne', Nat.not_le.mpr (Nat.lt_succ_of_lt hlt)]
  · simp
  · simp [hgt.ne', Nat.not_lt.mpr hgt.le, Nat.succ_le_of_lt hgt, hhi]

/-- The last 8 bytes of the block FINAL ends with are the length field (R117). -/
theorem finish_lengthField (s : State) {k : Nat} (hlo : 56 ≤ k) (hk : k < 64) :
    (finish s).pbuf[k] = be64byte (finish s).tbits (k - 56) := by
  rcases Nat.lt_or_ge s.plen.toNat 56 with hn | hn
  · simp [(finish_one s (by omega)).1, writeLength_getElem, hlo]
  · simp [(finish_two s hn).1, writeLength_getElem, hlo]

/-- With room for the length field, the buffered bytes, the marker and zeros come before it. -/
theorem finish_one_getElem {s : State} {k : Nat} (hn : s.plen.toNat ≤ 55) (hk : k < 56) :
    (finish s).pbuf[k] = if k < s.plen.toNat then s.pbuf[k] else if k = s.plen.toNat then 0x80#8 else 0#8 := by
  simp only [(finish_one s hn).1, writeLength_getElem, Nat.not_le.mpr hk, if_false, markedFill_getElem _ _ hk]

/-- Without it, only zeros do. -/
theorem finish_two_getElem {s : State} {k : Nat} (hn : 56 ≤ s.plen.toNat) (hk : k < 56) :
    (finish s).pbuf[k] = 0#8 := by
  simp [(finish_two s hn).1, writeLength_getElem, zeroFill_getElem, hk, Nat.not_le.mpr hk]

/-- Settles O23: the bytes of the two blocks one by one, the padding block being the marked buffer filled to its end. -/
theorem finalPadsAtThreshold : Obligations.FinalPadsAtThreshold := by
  intro data s hp
  refine ⟨finish s, exec_final_active data hp, fun k => ?length, fun hn => ?one, fun hn => ?two⟩
  case length => simp [finish_lengthField]
  case one => exact ⟨(finish_one s hn).2, fun k hk => finish_one_getElem hn hk⟩
  case two =>
    exact ⟨zeroFill (s.plen.toNat + 1) 64 (s.pbuf.setIfInBounds s.plen.toNat 0x80#8),
      fun k => markedFill_getElem s.pbuf k.isLt k.isLt, (finish_two s hn).2,
      fun k hk => finish_two_getElem hn hk⟩

end Sys2Proof.Machine

/-! PROOFS. The transition table, O35 (42_stream.md R121). -/

namespace Sys2Proof.Machine

open Sys2Proof.Safety

/-- What the decoder accepts has a legal beat (30_encoding.md R68). -/
theorem wellFormed_of_decode {c : Beat} {i : Instr} (h : decode c = .ok i) : i.wellFormed = true := by
  cases i with
  | nop | init | final => rfl
  | update cnt data =>
    obtain ⟨hd, -⟩ | ⟨hd, -⟩ | ⟨hd, -⟩ | ⟨hd, -⟩ | ⟨hd, -⟩ | ⟨hd, -, -, hc⟩ | ⟨hd, -⟩ := decode_cases c <;>
      rw [hd] at h <;> cases h
    exact decide_eq_true hc

/-- A well-formed command follows the transition table, and writes FCAUSE exactly where its entry is a fault. -/
theorem effect_lifecycle {i : Instr} (hw : i.wellFormed = true) (s : State) :
    (effect i s).phase = lifecycle s.phase (.ok i) ∧
    (effect i s).fcause = (faultOf s.phase (.ok i)).elim s.fcause Cause.code := by
  cases i with
  | nop data => cases hp : s.phase <;> simp [effect, lifecycle, faultOf, hp]
  | init data => cases hp : s.phase <;> simp [effect, lifecycle, faultOf, hp]
  | update cnt data =>
    have hc : ¬ 4 < cnt.toNat := Nat.not_lt.mpr (of_decide_eq_true hw)
    obtain ⟨hphase, hfcause, -⟩ := appendBytes_frame (updateBytes cnt data) s
    cases hp : s.phase <;> simp [effect, lifecycle, faultOf, hp, hc, hphase, hfcause]
  | final data =>
    obtain ⟨-, -, hphase, hfcause, -⟩ := finish_registers s
    cases hp : s.phase <;> simp [effect, lifecycle, faultOf, hp, hphase, hfcause]

/-- So does every accepted beat, an illegal one faulting with its cause in every phase but FAULTED. -/
theorem acceptEffect_lifecycle (c : Beat) (s : State) :
    (acceptEffect c s).phase = lifecycle s.phase (decode c) ∧
    (acceptEffect c s).fcause = (faultOf s.phase (decode c)).elim s.fcause Cause.code := by
  cases hd : decode c with
  | error x => cases hp : s.phase <;> simp [acceptEffect, lifecycle, faultOf, hp, hd]
  | ok i =>
    have hacc : acceptEffect c s = effect i s := by
      by_cases hp : s.phase = .faulted <;> simp [acceptEffect, effect, hp, hd]
    rw [hacc]
    exact effect_lifecycle (wellFormed_of_decode hd) s

/-- Settles O35: the step is the accepted beat's effect, and the reads made meanwhile change no register. -/
theorem phaseFollowsTransitionTable : Obligations.PhaseFollowsTransitionTable := by
  intro s c reads rest hb hi
  obtain ⟨hphase, hfcause⟩ := acceptEffect_lifecycle c (logged c rest (beginStep s))
  obtain ⟨rs, hserve⟩ := serveWhileBusy_eq reads (acceptEffect c (logged c rest (beginStep s)))
  refine ⟨_, step_issue hb hi, ?_, ?_⟩ <;> rw [hserve]
  · exact hphase
  · refine hfcause.trans ?_
    rw [logged_phase, beginStep_toBlockState]
    cases faultOf s.phase (decode c) <;> rfl

end Sys2Proof.Machine

/-! PROOFS. The bytes of DIGEST, O44 (42_stream.md R120; 10_state.md R35). -/

namespace Sys2Proof.Machine

open Sys2Proof.Safety

section
open BitVec

/-- H[j] stands in DIGEST from bit 32 (4 - j) up: each case drops the words below its own. -/
theorem digestWord_word (h : HashState) (j : Fin 5) : (digestWord h).extractLsb' (128 - 32 * j.val) 32 = h[j] := by
  rw [digestWord]
  match j with
  | 0 =>
    rw [extractLsb'_append_eq_of_le (by decide), extractLsb'_append_eq_of_le (by decide),
      extractLsb'_append_eq_of_le (by decide)]
    exact extractLsb'_append_eq_left
  | 1 =>
    rw [extractLsb'_append_eq_of_le (by decide), extractLsb'_append_eq_of_le (by decide),
      extractLsb'_append_eq_of_le (by decide)]
    exact extractLsb'_append_eq_right
  | 2 =>
    rw [extractLsb'_append_eq_of_le (by decide), extractLsb'_append_eq_of_le (by decide)]
    exact extractLsb'_append_eq_right
  | 3 =>
    rw [extractLsb'_append_eq_of_le (by decide)]
    exact extractLsb'_append_eq_right
  | 4 => exact extractLsb'_append_eq_right

end

/-- Byte `m` of H[j], most significant first, is byte `4j + m` of DIGEST. -/
theorem digestWord_byte (h : HashState) (j : Fin 5) {m : Nat} (hm : m < 4) :
    (digestWord h).extractLsb' (152 - 8 * (4 * j.val + m)) 8 = h[j].extractLsb' (24 - 8 * m) 8 := by
  rw [← digestWord_word]
  ext k hk
  have hin : 24 - 8 * m + k < 32 := by omega
  have hat : 128 - 32 * j.val + (24 - 8 * m + k) = 152 - 8 * (4 * j.val + m) + k := by omega
  simp [hin, hat]

/-- With BUSY = 0 in FINALIZED the host gets H. -/
theorem digestRead_of_finalized {s : State} (hb : s.busy = false) (hp : s.phase = .finalized) :
    digestRead s = digestWord s.h := by
  simp [digestRead, hb, hp]

/-- A step on a DIGEST read with BUSY = 0 in FINALIZED: the one reading is H, and no register changes. -/
theorem step_readDigest {s : State} {rest : List HostMove} (hb : s.busy = false) (hp : s.phase = .finalized)
    (hi : s.inbox = .read .digest :: rest) :
    ∃ t, step s = .next t ∧ t.readings = [.digest (digestWord s.h)] ∧ SameRegisters s t := by
  refine ⟨_, step_read hi, ?_, serveRead_sameRegisters .digest _⟩
  rw [serveRead_readings, portRead, digestRead_of_finalized (by exact hb) (by exact hp)]
  rfl

/-- Settles O44: FINAL keeps the readings, and the step on a DIGEST read gives back `digestWord`, whose bytes are those
of H. -/
theorem digestReadGivesItsBytes : Obligations.DigestReadGivesItsBytes := by
  refine ⟨fun data s hp => ?final, fun s rest hb hp hi => ?read⟩
  case final =>
    obtain ⟨-, -, hphase, -, -, -, -, -, hreadings, -⟩ := finish_registers s
    exact ⟨finish s, exec_final_active data hp, hphase, hreadings⟩
  case read =>
    obtain ⟨t, hstep, hread, hregs⟩ := step_readDigest hb hp hi
    exact ⟨t, digestWord s.h, hstep, hread, fun j m hm => digestWord_byte s.h j hm, hregs⟩

end Sys2Proof.Machine

/-! PROOFS. The blocks of a list of commands, those of FINAL, and the two statements over a whole computation, O53 and
O54 (42_stream.md R112, R116, R122, R127). -/

namespace Sys2Proof.Safety

open Sys2Proof.Machine

/-! ### Blocks of a sequence -/

/-- The blocks of a sequence are those of its first part, then those of its incomplete last block with the rest. -/
theorem blocksOf_append_tail (l r : List Byte) :
    blocksOf (l ++ r) = blocksOf l ++ blocksOf (l.drop (64 * (l.length / 64)) ++ r) := by
  have hcut := List.take_append_drop (64 * (l.length / 64)) l
  have htake : (l.take (64 * (l.length / 64))).length % 64 = 0 := by
    rw [List.length_take_of_le (Nat.mul_div_le _ _), Nat.mul_mod_right]
  have htail : blocksOf (l.drop (64 * (l.length / 64))) = [] := blocksOf_short (by rw [List.length_drop]; omega)
  have hhead : blocksOf l = blocksOf (l.take (64 * (l.length / 64))) := by
    rw [← hcut, blocksOf_append _ htake, htail, List.append_nil, hcut]
  rw [hhead, ← blocksOf_append _ htake, ← List.append_assoc, hcut]

/-- One block is its own bytes cut into blocks. -/
theorem blocksOf_toList (b : Block) : blocksOf b.toList = [b] := by
  have h := blocksOf_cons b []
  rwa [List.append_nil, blocksOf_short (l := []) (by decide)] at h

/-! ### Padding -/

@[simp] theorem be64bytes_length (v : BitVec 64) : (be64bytes v).length = 8 := by simp [be64bytes]

@[simp] theorem padding_length (n : Nat) (bits : BitVec 64) : (padding n bits).length = 1 + padZeros n + 8 := by
  simp [padding]; omega

/-- The padding depends on the length of the message in its last block only. -/
theorem padding_mod (n : Nat) (bits : BitVec 64) : padding (n % 64) bits = padding n bits := by
  rw [padding, padding, padZeros, padZeros, Nat.mod_mod]

/-- `k` brings the marked message to 56 bytes past a block end, and no smaller number does (R127). -/
theorem padZeros_spec (n : Nat) :
    (n + 1 + padZeros n) % 64 = 56 ∧ ∀ j, (n + 1 + j) % 64 = 56 → padZeros n ≤ j := by
  unfold padZeros
  exact ⟨by omega, fun j hj => by omega⟩

theorem paddedMessage_length (m : List Byte) :
    (paddedMessage m).length = 64 * (m.length / 64 + if m.length % 64 ≤ 55 then 1 else 2) := by
  rw [paddedMessage, List.length_append, padding_length, padZeros]
  split_ifs <;> omega

end Sys2Proof.Safety

namespace Sys2Proof.Machine

open Sys2Proof.Safety

/-! ### Lists of commands -/

theorem runBlocks_cons {i : Instr} {s t : State} (is : List Instr) (h : exec i s = .next t) :
    runBlocks (i :: is) s = blocksConsumed i s ++ runBlocks is t := by
  simp only [runBlocks, h]

/-- A second list of commands starts from the state the first one leaves, and its blocks follow those of the first. -/
theorem run_append {is : List Instr} {s t : State} (js : List Instr) (h : runInstrs is s = .next t) :
    runInstrs (is ++ js) s = runInstrs js t ∧ runBlocks (is ++ js) s = runBlocks is s ++ runBlocks js t := by
  induction is generalizing s with
  | nil => cases h; exact ⟨rfl, rfl⟩
  | cons i is ih =>
    have hi := exec_eq i s
    rw [runInstrs_cons is hi] at h
    obtain ⟨hrun, hblocks⟩ := ih h
    rw [List.cons_append, runInstrs_cons _ hi, runBlocks_cons _ hi, runBlocks_cons _ hi, hblocks, List.append_assoc]
    exact ⟨hrun, rfl⟩

/-- In ACTIVE a command of a stream consumes the blocks that the buffered bytes and its own complete. -/
theorem blocksConsumed_stream {i : Instr} {x : List Byte} {s : State} (hp : s.phase = .active)
    (h : streamBytes i = some x) : blocksConsumed i s = blocksOf (pending s ++ x) := by
  obtain ⟨data, rfl, rfl⟩ | ⟨cnt, data, rfl, hc, rfl⟩ := streamBytes_cases h
  · rw [List.append_nil, blocksOf_short ((pending_length s).trans_lt s.plen.isLt)]
    simp [blocksConsumed]
  · simp [blocksConsumed, hp, hc]

/-- In ACTIVE a list of UPDATEs and NOPs consumes the blocks that the buffered bytes and its byte sequence complete. -/
theorem runBlocks_stream {is : List Instr} {x : List Byte} {s : State} (hp : s.phase = .active)
    (h : streamOf is = some x) : runBlocks is s = blocksOf (pending s ++ x) := by
  induction is generalizing x s with
  | nil =>
    cases h
    rw [List.append_nil, blocksOf_short ((pending_length s).trans_lt s.plen.isLt), runBlocks]
  | cons i is ih =>
    obtain ⟨y, z, hy, hz, rfl⟩ := streamOf_cons_eq_some h
    have hp' : (appendBytes y s).phase = .active := (appendBytes_frame y s).1.trans hp
    obtain ⟨-, -, hpending⟩ := appendBytes_spec y s
    rw [runBlocks_cons is (exec_stream hp hy), blocksConsumed_stream hp hy, ih hp' hz, hpending,
      ← blocksOf_append_tail, List.append_assoc]

/-! ### The blocks of FINAL -/

/-- A marked block up to the end of its zero fill: the bytes before the marker, the marker, zeros. -/
theorem take_markedFill {n hi : Nat} (b : Block) (hn : n < hi) (hhi : hi ≤ 64) :
    (zeroFill (n + 1) hi (b.setIfInBounds n 0x80#8)).toList.take hi =
      b.toList.take n ++ ([0x80#8] ++ List.replicate (hi - (n + 1)) 0#8) := by
  have hlen : (b.toList.take n).length = n := by rw [List.length_take, Vector.length_toList]; omega
  apply List.ext_getElem
  · simp [hlen]; omega
  · intro k hk _
    have hk' : k < hi := (List.length_take_le _ _).trans_lt' hk
    rw [List.getElem_take, Vector.getElem_toList, markedFill_getElem b (by omega) hk']
    obtain hlt | rfl | hgt := Nat.lt_trichotomy k n
    · rw [if_pos hlt, List.getElem_append_left (by omega)]
      simp
    · simp [List.getElem_append_right, hlen]
    · rw [if_neg (by omega), if_neg (by omega), List.getElem_append_right (by omega),
        List.getElem_append_right (by simp; omega), List.getElem_replicate]

/-- A block filled with zeros from its start. -/
theorem take_zeroFill {hi : Nat} (b : Block) (hhi : hi ≤ 64) :
    (zeroFill 0 hi b).toList.take hi = List.replicate hi 0#8 := by
  apply List.ext_getElem
  · simp [hhi]
  · intro k hk _
    have hk' : k < hi := (List.length_take_le _ _).trans_lt' hk
    simp [zeroFill_getElem, hk']

/-- A block with the length field: its first 56 bytes, then the 8 bytes of the length (R117). -/
theorem toList_writeLength (v : BitVec 64) (b : Block) :
    (writeLength v b).toList = b.toList.take 56 ++ be64bytes v := by
  have hlen : (b.toList.take 56).length = 56 := by simp
  apply List.ext_getElem
  · simp
  · intro k hk _
    rw [Vector.length_toList] at hk
    rw [Vector.getElem_toList, writeLength_getElem v b k hk]
    obtain hlo | hhi := Nat.lt_or_ge k 56
    · rw [if_neg (by omega), List.getElem_append_left (by omega)]
      simp
    · rw [if_pos hhi, List.getElem_append_right (by omega)]
      simp [be64bytes]

/-- With room for the length field, the padded bytes are the block FINAL ends with (R116). -/
theorem padded_eq_lastBlock {s : State} (hn : s.plen.toNat ≤ 55) :
    pending s ++ padding s.plen.toNat (finish s).tbits = (finish s).pbuf.toList := by
  have hz : padZeros s.plen.toNat = 56 - (s.plen.toNat + 1) := by unfold padZeros; omega
  rw [(finish_one s hn).1, toList_writeLength, take_markedFill _ (by omega) (by decide), padding, hz, pending]
  simp only [List.append_assoc]

/-- Without it, they are the padding block and then the block FINAL ends with (R116). -/
theorem padded_eq_paddingBlock_lastBlock {s : State} (hn : 56 ≤ s.plen.toNat) :
    pending s ++ padding s.plen.toNat (finish s).tbits =
      (zeroFill (s.plen.toNat + 1) 64 (s.pbuf.setIfInBounds s.plen.toNat 0x80#8)).toList ++
        (finish s).pbuf.toList := by
  have hz : padZeros s.plen.toNat = 64 - (s.plen.toNat + 1) + 56 := by
    have := s.plen.isLt
    unfold padZeros
    omega
  have hpad := take_markedFill s.pbuf s.plen.isLt (by decide)
  rw [List.take_of_length_le (by simp)] at hpad
  rw [hpad, (finish_two s hn).1, toList_writeLength, take_zeroFill _ (by decide), padding, hz, List.replicate_add,
    pending]
  simp

/-- FINAL leaves H folded over the blocks of the buffered bytes and their padding, one block or two (R116). -/
theorem finish_h (s : State) :
    (finish s).h = absorb s.h (blocksOf (pending s ++ padding s.plen.toNat (finish s).tbits)) := by
  obtain hn | hn := Nat.lt_or_ge s.plen.toNat 56
  · rw [padded_eq_lastBlock (by omega), blocksOf_toList, absorb_cons, absorb_nil, ← (finish_one s (by omega)).2]
  · rw [padded_eq_paddingBlock_lastBlock hn, blocksOf_cons, blocksOf_toList, absorb_cons, absorb_cons, absorb_nil,
      ← (finish_two s hn).2]

theorem blocksConsumed_final (data : Word) {s : State} (hp : s.phase = .active) :
    blocksConsumed (.final data) s = blocksOf (pending s ++ padding s.plen.toNat (finish s).tbits) := by
  rw [(finish_registers s).1]
  simp [blocksConsumed, hp]

/-! ### Whole computations -/

/-- The context of a message: INIT, then the appends of its bytes. -/
def messageContext (m : List Byte) (s : State) : State := appendBytes m (startContext s)

theorem messageContext_phase (m : List Byte) (s : State) : (messageContext m s).phase = .active :=
  (appendBytes_frame m (startContext s)).1

@[simp] theorem pending_startContext (s : State) : pending (startContext s) = [] := by simp [pending]

/-- H, TBITS and the buffered bytes of the context of a message (10_state.md R38). -/
theorem messageContext_spec (m : List Byte) (s : State) :
    (messageContext m s).h = absorb iv (blocksOf m) ∧
    (messageContext m s).tbits = BitVec.ofNat 64 (512 * (m.length / 64)) ∧
    pending (messageContext m s) = m.drop (64 * (m.length / 64)) := by
  simpa [messageContext] using appendBytes_spec m (startContext s)

theorem messageContext_plen (m : List Byte) (s : State) : (messageContext m s).plen.toNat = m.length % 64 := by
  simpa [messageContext] using appendBytes_plen m (startContext s)

/-- After FINAL, TBITS counts the bits of the whole message (R119). -/
theorem finish_messageContext_tbits (m : List Byte) (s : State) :
    (finish (messageContext m s)).tbits = BitVec.ofNat 64 (8 * m.length) := by
  obtain ⟨-, htbits, -⟩ := messageContext_spec m s
  have hbits : 512 * (m.length / 64) + 8 * (m.length % 64) = 8 * m.length := by omega
  rw [(finish_registers _).1, htbits, messageContext_plen, ← BitVec.ofNat_add, hbits]

/-- The blocks of the complete message and those that FINAL pads it with are the padded message's (R127). -/
theorem blocksOf_paddedMessage (data : Word) (m : List Byte) (s : State) :
    blocksOf (paddedMessage m) = blocksOf m ++ blocksConsumed (.final data) (messageContext m s) := by
  obtain ⟨-, -, hpending⟩ := messageContext_spec m s
  rw [blocksConsumed_final data (messageContext_phase m s), hpending, messageContext_plen, padding_mod,
    finish_messageContext_tbits, paddedMessage, blocksOf_append_tail]

/-- INIT and the UPDATEs of a message, from every state not FAULTED. -/
theorem run_message {is : List Instr} {m : List Byte} {s : State} (first : Word) (hp : s.phase ≠ .faulted)
    (his : streamOf is = some m) :
    runInstrs (.init first :: is) s = .next (messageContext m s) ∧ runBlocks (.init first :: is) s = blocksOf m := by
  have hinit := exec_init_of_not_faulted first hp
  have hnone : blocksConsumed (.init first) s = [] := by simp [blocksConsumed]
  rw [runInstrs_cons is hinit, runBlocks_cons is hinit, hnone, runInstrs_stream rfl his, runBlocks_stream rfl his]
  exact ⟨rfl, by simp⟩

/-- The whole computation of a message: it completes, and consumes the blocks of the padded message. -/
theorem run_computation {is : List Instr} {m : List Byte} {s : State} (first last : Word) (hp : s.phase ≠ .faulted)
    (his : streamOf is = some m) :
    runInstrs (.init first :: is ++ [.final last]) s = .next (finish (messageContext m s)) ∧
    runBlocks (.init first :: is ++ [.final last]) s = blocksOf (paddedMessage m) := by
  obtain ⟨hrun, hblocks⟩ := run_message first hp his
  have hfinal := exec_final_active last (messageContext_phase m s)
  obtain ⟨hrun', hblocks'⟩ := run_append [.final last] hrun
  rw [hrun', hblocks', hblocks, runInstrs_cons [] hfinal, runBlocks_cons [] hfinal, blocksOf_paddedMessage last m s]
  exact ⟨rfl, by simp [runBlocks]⟩

/-- H after a whole computation is the hash of the message. -/
theorem finish_messageContext_h (m : List Byte) (s : State) : (finish (messageContext m s)).h = hashOf m := by
  obtain ⟨hh, -, -⟩ := messageContext_spec m s
  rw [hashOf, blocksOf_paddedMessage 0 m s, absorb_append, ← hh,
    blocksConsumed_final 0 (messageContext_phase m s), ← finish_h]

/-- Settles O53: the blocks are those of the padded message, and H is its hash. -/
theorem transformsConsumePaddedMessage : Obligations.TransformsConsumePaddedMessage := by
  intro is m first last s hp his
  obtain ⟨hrun, hblocks⟩ := run_computation first last hp his
  obtain ⟨hk, hleast⟩ := padZeros_spec m.length
  refine ⟨padZeros m.length, hk, hleast, ?padded, ?whole, hblocks, _, hrun, ?folded⟩
  case padded => simp [paddedMessage, padding]
  case whole => rw [paddedMessage_length, Nat.mul_mod_right]
  case folded => rw [hblocks, finish_messageContext_h, hashOf]

/-- Settles O54: the padded message has that many blocks, and the message alone `N / 64` of them. -/
theorem transformCountOfMessage : Obligations.TransformCountOfMessage := by
  intro is m first last s hp his
  obtain ⟨-, hwhole⟩ := run_computation first last hp his
  obtain ⟨-, hupdates⟩ := run_message first hp his
  rw [hwhole, hupdates, blocksOf_length, blocksOf_length, paddedMessage_length,
    Nat.mul_div_cancel_left _ (by decide)]
  exact ⟨rfl, rfl⟩

end Sys2Proof.Machine

/-! PROOFS. The fault an accepted beat takes, for every phase, and O29, O30, O27 (60_exceptions.md R136, R138, R140). -/

namespace Sys2Proof.Machine

open Sys2Proof.Safety

/-! ### The beat, the command and the fault -/

/-- A beat the decoder accepts is the beat of the command it reads, so a fault of that command records the beat
(30_encoding.md R63; R136). -/
theorem encode_of_decode {c : Beat} {i : Instr} (h : decode c = .ok i) : encode i = c := by
  have hfields : opcField c = opcodeOf i ∧ cntField c = countOf i ∧ rsvField c = 0#1 ∧ dataField c = i.data := by
    obtain ⟨hd, -⟩ | ⟨hd, -⟩ | ⟨hd, -⟩ | ⟨hd, ho, hr, hn⟩ | ⟨hd, ho, hr, hn⟩ | ⟨hd, ho, hr, -⟩ | ⟨hd, ho, hr, hn⟩ :=
      decode_cases c <;> rw [hd] at h <;> cases h
    · exact ⟨ho, hn, hr, rfl⟩
    · exact ⟨ho, hn, hr, rfl⟩
    · exact ⟨ho, rfl, hr, rfl⟩
    · exact ⟨ho, hn, hr, rfl⟩
  obtain ⟨ho, hn, hr, hdata⟩ := hfields
  rw [encode, ← ho, ← hn, ← hr, ← hdata, packBeat_fields]

/-- Outside FAULTED an illegal beat faults with the cause its decoding gives. -/
theorem faultOf_error {p : Phase} (hp : p ≠ .faulted) (x : Cause) : faultOf p (.error x) = some x := by
  cases p with
  | uninit | active | finalized => rfl
  | faulted => contradiction

/-- The only fault of a legal command is NOT_ACTIVE, which UPDATE and FINAL take in UNINIT and FINALIZED (R138). -/
theorem effect_of_fault {i : Instr} {s : State} {x : Cause} (hw : i.wellFormed = true)
    (h : faultOf s.phase (.ok i) = some x) : effect i s = takeFault x (encode i) s := by
  cases i with
  | nop data => cases hp : s.phase <;> simp [faultOf, hp] at h
  | init data => cases hp : s.phase <;> simp [faultOf, hp] at h
  | update cnt data =>
    have hc : ¬ 4 < cnt.toNat := Nat.not_lt.mpr (of_decide_eq_true hw)
    cases hp : s.phase <;> simp [faultOf, hp] at h <;> simp [effect, hp, hc, h]
  | final data => cases hp : s.phase <;> simp [faultOf, hp] at h <;> simp [effect, hp, h]

/-- A legal command that does not fault leaves the fault record. -/
theorem effect_faultRecord_of_no_fault {i : Instr} {s : State} (hw : i.wellFormed = true)
    (h : faultOf s.phase (.ok i) = none) : (effect i s).faultRecord = s.faultRecord := by
  cases i with
  | nop data => simp [effect]
  | init data => cases hp : s.phase <;> simp [effect, hp]
  | update cnt data =>
    have hc : ¬ 4 < cnt.toNat := Nat.not_lt.mpr (of_decide_eq_true hw)
    obtain ⟨-, -, -, hrecord, -⟩ := appendBytes_frame (updateBytes cnt data) s
    cases hp : s.phase <;> simp [faultOf, hp] at h <;> simp [effect, hp, hc, hrecord]
  | final data =>
    obtain ⟨-, -, -, -, -, hrecord, -⟩ := finish_registers s
    cases hp : s.phase <;> simp [faultOf, hp] at h <;> simp [effect, hp, hrecord]

/-- In FAULTED a beat is discarded (60_exceptions.md R139). -/
theorem acceptEffect_of_faulted {s : State} (c : Beat) (hp : s.phase = .faulted) : acceptEffect c s = s := if_pos hp

/-- Outside FAULTED a legal beat has the effect of its command. -/
theorem acceptEffect_of_decode {c : Beat} {i : Instr} {s : State} (hp : s.phase ≠ .faulted) (hd : decode c = .ok i) :
    acceptEffect c s = effect i s := by
  simp [acceptEffect, hp, hd]

/-- A beat that faults, by its decoding or by its phase, takes that fault and does nothing else: "The fault is precise"
(R136). -/
theorem acceptEffect_of_fault {c : Beat} {s : State} {x : Cause} (h : faultOf s.phase (decode c) = some x) :
    acceptEffect c s = takeFault x c s := by
  have hp : s.phase ≠ .faulted := fun hp => by simp [hp, faultOf] at h
  cases hd : decode c with
  | error y =>
    obtain rfl : y = x := by simpa [hd, faultOf_error hp] using h
    simp [acceptEffect, hp, hd]
  | ok i =>
    rw [acceptEffect_of_decode hp hd, effect_of_fault (wellFormed_of_decode hd) (hd ▸ h), encode_of_decode hd]

/-- A beat that does not fault leaves the fault record. -/
theorem acceptEffect_faultRecord_of_no_fault {c : Beat} {s : State} (h : faultOf s.phase (decode c) = none) :
    (acceptEffect c s).faultRecord = s.faultRecord := by
  by_cases hp : s.phase = .faulted
  · rw [acceptEffect_of_faulted c hp]
  · cases hd : decode c with
    | error y => simp [hd, faultOf_error hp] at h
    | ok i =>
      rw [acceptEffect_of_decode hp hd]
      exact effect_faultRecord_of_no_fault (wellFormed_of_decode hd) (hd ▸ h)

/-! ### The step -/

/-- A step that accepts a beat leaves the accepted beat's effect in the block, which is ready again: the reads made
meanwhile reach only the host. -/
theorem step_accept {s : State} {c : Beat} {reads : List ReadPort} {rest : List HostMove} (hb : s.busy = false)
    (hi : s.inbox = .issue c reads :: rest) :
    ∃ t, step s = .next t ∧ t.toBlockState = (acceptEffect c (logged c rest (beginStep s))).toBlockState ∧
      t.busy = false ∧ t.inbox = rest := by
  obtain ⟨rs, hserve⟩ := serveWhileBusy_eq reads (acceptEffect c (logged c rest (beginStep s)))
  obtain ⟨-, -, hinbox, -, -⟩ := acceptEffect_frame c (logged c rest (beginStep s))
  exact ⟨_, step_issue hb hi, by rw [hserve], by rw [hserve], by rw [hserve]; exact hinbox⟩

/-- A step on a beat that faults: the fault and the log entry are all it leaves in the block (R136). -/
theorem step_accept_of_fault {s : State} {c : Beat} {reads : List ReadPort} {rest : List HostMove} {x : Cause}
    (hb : s.busy = false) (hi : s.inbox = .issue c reads :: rest) (h : faultOf s.phase (decode c) = some x) :
    ∃ t, step s = .next t ∧ t.toBlockState = (takeFault x c (logged c rest s)).toBlockState ∧
      t.busy = false ∧ t.inbox = rest := by
  obtain ⟨t, hstep, hblock, hready⟩ := step_accept hb hi
  rw [acceptEffect_of_fault (s := logged c rest (beginStep s)) h] at hblock
  exact ⟨t, hstep, hblock, hready⟩

/-- A step on a beat in FAULTED: it is accepted, so logged, and discarded (R139). -/
theorem step_accept_of_faulted {s : State} {c : Beat} {reads : List ReadPort} {rest : List HostMove}
    (hb : s.busy = false) (hi : s.inbox = .issue c reads :: rest) (hp : s.phase = .faulted) :
    ∃ t, step s = .next t ∧ t.toBlockState = (logged c rest s).toBlockState ∧ t.busy = false ∧ t.inbox = rest := by
  obtain ⟨t, hstep, hblock, hready⟩ := step_accept hb hi
  rw [acceptEffect_of_faulted (s := logged c rest (beginStep s)) c hp] at hblock
  exact ⟨t, hstep, hblock, hready⟩

/-- Settles O29: the step takes the fault, and every beat offered after it meets a ready block in FAULTED. -/
theorem faultWritesPhaseAndCauseOnly : Obligations.FaultWritesPhaseAndCauseOnly := by
  intro s c x reads rest hb hi h
  obtain ⟨⟨t, tp⟩, hstep, rfl, hbusy, hinbox⟩ := step_accept_of_fault hb hi h
  refine ⟨_, hstep, rfl, rfl, rfl, rfl, rfl, rfl, rfl, hbusy, rfl, hinbox, fun d more tail => ?_⟩
  obtain ⟨⟨u, up⟩, hstep', rfl, hbusy', hinbox'⟩ := step_accept_of_faulted
    (s := { takeFault x c (logged c rest s) with toPorts := { tp with inbox := .issue d more :: tail } }) hbusy rfl rfl
  exact ⟨_, hstep', ⟨rfl, rfl, rfl, rfl, rfl, rfl⟩, rfl, hbusy', rfl, hinbox'⟩

/-! ### The order of the causes -/

/-- Outside FAULTED the cause of a beat is the first of the conditions in the order of R140 that its fields meet. -/
theorem faultOf_decode {p : Phase} (hp : p ≠ .faulted) (c : Beat) :
    faultOf p (decode c) =
      if 4 ≤ (opcField c).toNat then some .reservedOpcode
      else if rsvField c = 1#1 ∨ (opcField c ≠ 2#4 ∧ cntField c ≠ 0#3) then some .reservedField
      else if opcField c = 2#4 ∧ 4 < (cntField c).toNat then some .badCount
      else if (opcField c = 2#4 ∨ opcField c = 3#4) ∧ p ≠ .active then some .notActive
      else none := by
  obtain ⟨hd, ho⟩ | ⟨hd, ho, hf⟩ | ⟨hd, ho, hr, hn⟩ | ⟨hd, ho, hr, hn⟩ | ⟨hd, ho, hr, hn⟩ | ⟨hd, ho, hr, hn⟩ |
    ⟨hd, ho, hr, hn⟩ := decode_cases c <;> rw [hd]
  · rw [faultOf_error hp, if_pos ho]
  · rw [faultOf_error hp, if_neg (Nat.not_le.mpr ho), if_pos hf]
  · simp [faultOf_error hp, ho, hr, hn]
  · cases p <;> simp_all [faultOf]
  · cases p <;> simp_all [faultOf]
  · cases p <;> simp_all [faultOf, Nat.not_lt.mpr hn]
  · cases p <;> simp_all [faultOf]

/-- Outside FAULTED a beat without a fault leads to no FAULTED phase. -/
theorem lifecycle_of_no_fault {p : Phase} {d : Except Cause Instr} (hp : p ≠ .faulted) (h : faultOf p d = none) :
    lifecycle p d ≠ .faulted := by
  rcases d with x | i
  · simp [faultOf_error hp] at h
  · cases i <;> cases p <;> simp_all [faultOf, lifecycle]

/-- Settles O30: the fault taken is that of `faultOf`, which follows the order of R140. -/
theorem firstCauseIsReported : Obligations.FirstCauseIsReported := by
  intro s c reads rest hb hi hp
  have hcause := faultOf_decode hp c
  cases h : faultOf s.phase (decode c) with
  | some x =>
    obtain ⟨⟨t, tp⟩, hstep, rfl, -⟩ := step_accept_of_fault hb hi h
    refine ⟨_, hstep, by simp, ?_⟩
    rw [h] at hcause
    dsimp only
    split_ifs at hcause ⊢ <;> cases hcause <;> exact ⟨rfl, rfl⟩
  | none =>
    obtain ⟨⟨t, tp⟩, hstep, rfl, -⟩ := step_accept hb hi
    obtain ⟨hphase, hfcause⟩ := acceptEffect_lifecycle c (logged c rest (beginStep s))
    have hrecord := acceptEffect_faultRecord_of_no_fault (s := logged c rest (beginStep s)) h
    refine ⟨_, hstep, by simp [hrecord], ?_⟩
    rw [h] at hcause
    dsimp only
    split_ifs at hcause ⊢
    exact ⟨hphase ▸ lifecycle_of_no_fault hp h, hfcause.trans (by simp [h]), hrecord⟩

/-- Settles O27: UPDATE and FINAL take the fault of `faultOf`; NOP changes nothing and INIT starts a context. -/
theorem streamCommandsFaultOutsideActive : Obligations.StreamCommandsFaultOutsideActive := by
  refine ⟨fun i s hi hs => ?faults, fun data s hp => ?completes⟩
  case faults =>
    have hw : i.wellFormed = true := by
      obtain ⟨cnt, data, rfl, hc⟩ | ⟨data, rfl⟩ := hi
      · exact decide_eq_true hc
      · rfl
    have hfault : faultOf s.phase (.ok i) = some .notActive := by
      obtain ⟨cnt, data, rfl, -⟩ | ⟨data, rfl⟩ := hi <;> obtain hp | hp := hs <;> rw [hp] <;> rfl
    rw [exec_eq, effect_of_fault hw hfault]
    rfl
  case completes => exact ⟨s, startContext s, rfl, exec_init_of_not_faulted data hp, hp, nofun, rfl, rfl⟩

end Sys2Proof.Machine

/-! PROOFS. What a step does in FAULTED, O32 (60_exceptions.md R142; 70_reset_and_hazards.md R155, R165). -/

namespace Sys2Proof.Machine

open Sys2Proof.Safety

/-- In FAULTED every step but a reset keeps PHASE, FCAUSE and the fault record. -/
theorem step_of_faulted {s : State} (hp : s.phase = .faulted) (hi : ∀ held rest, s.inbox ≠ .reset held :: rest) :
    ∃ t, step s = .next t ∧ t.phase = .faulted ∧ t.fcause = s.fcause ∧ t.faultRecord = s.faultRecord := by
  obtain ⟨-, hstep⟩ | ⟨rest, -, hstep⟩ | ⟨p, rest, -, hstep⟩ | ⟨held, rest, hreset, -⟩ | ⟨c, reads, rest, -, -, hstep⟩ |
    ⟨c, reads, rest, hissue, hb, -⟩ := step_cases s
  · exact ⟨_, hstep, hp, rfl, rfl⟩
  · exact ⟨_, hstep, hp, rfl, rfl⟩
  · exact ⟨_, hstep, hp, rfl, rfl⟩
  · exact absurd hreset (hi held rest)
  · exact ⟨_, hstep, hp, rfl, rfl⟩
  · obtain ⟨⟨t, tp⟩, hstep, rfl, -⟩ := step_accept_of_faulted hb hissue hp
    exact ⟨_, hstep, hp, rfl, rfl⟩

/-- A faulted run has no observation (R165). -/
theorem observation_of_faulted {s : State} (hp : s.phase = .faulted) : observation s = none := if_pos (.inl hp)

/-- Settles O32: the observation asks for a phase other than FAULTED; what a reset leaves is `resetBlock`. -/
theorem onlyResetLeavesFaulted : Obligations.OnlyResetLeavesFaulted := by
  refine fun s hp => ⟨fun hi => ?other, fun held rest hi => ?reset⟩
  case other =>
    obtain ⟨t, hstep, hphase, hfcause, hrecord⟩ := step_of_faulted hp hi
    exact ⟨t, hstep, hphase, hfcause, hrecord, observation_of_faulted hphase⟩
  case reset =>
    obtain ⟨rs, hserve⟩ := serveWhileBusy_eq held (resetBlock { beginStep s with inbox := rest })
    refine ⟨_, step_reset hi, ?_⟩
    rw [hserve]
    exact ⟨rfl, rfl, rfl, rfl⟩

end Sys2Proof.Machine

/-! PROOFS. Steps without a beat, O38 (60_exceptions.md R150; 20_memory.md R49). -/

namespace Sys2Proof.Machine

open Sys2Proof.Safety

/-- A step on no move at all, with BUSY = 0. -/
theorem step_no_move {s : State} (hb : s.busy = false) (hi : s.inbox = []) :
    step s = .next { s with readings := [] } := by
  simp [step, takeMove, hi, moveIdle, beginStep, ← hb]

/-- A step on an idle move, with BUSY = 0. -/
theorem step_idle {s : State} {rest : List HostMove} (hb : s.busy = false) (hi : s.inbox = .idle :: rest) :
    step s = .next { s with inbox := rest, readings := [] } := by
  simp [step, takeMove, hi, moveIdle, beginStep, ← hb]

/-- Settles O38: no move, an idle move, a read. -/
theorem idleHoldsAllState : Obligations.IdleHoldsAllState := fun _ hb =>
  ⟨step_no_move hb, fun _ => step_idle hb,
    fun p _ hi => ⟨_, step_read hi, serveRead_sameRegisters p _, rfl, rfl, rfl⟩⟩

end Sys2Proof.Machine

/-! PROOFS. The beats of a program, and the machine's run over the host's moves as their acceptance one after another,
for O56 (30_encoding.md R63, R75; 70_reset_and_hazards.md R165, R167). -/

namespace Sys2Proof.Machine

open Sys2Proof.Safety

/-! ### The beats of commands -/

/-- The decoder reads back every well-formed command from its beat (30_encoding.md R63). -/
theorem decode_encode {i : Instr} (hw : i.wellFormed = true) : decode (encode i) = .ok i := by
  cases i with
  | nop | init | final => simp [decode, encode, opcodeOf, countOf, Instr.data]
  | update cnt data =>
    have hc : ¬ 4 < cnt.toNat := Nat.not_lt.mpr (of_decide_eq_true hw)
    simp [decode, encode, opcodeOf, countOf, Instr.data, hc]

/-- Accepting the beat of a command has the command's effect, in every phase. -/
theorem acceptEffect_encode {i : Instr} (hw : i.wellFormed = true) (s : State) :
    acceptEffect (encode i) s = effect i s := by
  by_cases hp : s.phase = .faulted
  · rw [acceptEffect_of_faulted _ hp, effect.eq_def, if_pos hp]
  · exact acceptEffect_of_decode hp (decode_encode hw)

/-- The effect of beats accepted one after another. -/
def acceptAll (cs : List Beat) (s : State) : State := cs.foldl (fun t c => acceptEffect c t) s

@[simp] theorem acceptAll_nil (s : State) : acceptAll [] s = s := rfl

@[simp] theorem acceptAll_cons (c : Beat) (cs : List Beat) (s : State) :
    acceptAll (c :: cs) s = acceptAll cs (acceptEffect c s) := rfl

theorem acceptAll_append (cs ds : List Beat) (s : State) :
    acceptAll (cs ++ ds) s = acceptAll ds (acceptAll cs s) := List.foldl_append

/-- Accepting the beats of a program is running it. -/
theorem runInstrs_eq_acceptAll {is : List Instr} (hw : ∀ i ∈ is, i.wellFormed = true) (s : State) :
    runInstrs is s = .next (acceptAll (is.map encode) s) := by
  induction is generalizing s with
  | nil => rfl
  | cons i is ih =>
    obtain ⟨hi, his⟩ := List.forall_mem_cons.mp hw
    rw [runInstrs_cons is (exec_eq i s), ih his, List.map_cons, acceptAll_cons, acceptEffect_encode hi]

/-- Every command of a stream has a legal beat. -/
theorem wellFormed_of_streamBytes {i : Instr} {x : List Byte} (h : streamBytes i = some x) : i.wellFormed = true := by
  obtain ⟨data, rfl, -⟩ | ⟨cnt, data, rfl, hc, -⟩ := streamBytes_cases h
  · rfl
  · exact decide_eq_true hc

theorem wellFormed_of_streamOf {is : List Instr} {x : List Byte} (h : streamOf is = some x) :
    ∀ i ∈ is, i.wellFormed = true := by
  induction is generalizing x with
  | nil => nofun
  | cons i is ih =>
    obtain ⟨y, z, hy, hz, -⟩ := streamOf_cons_eq_some h
    exact List.forall_mem_cons.mpr ⟨wellFormed_of_streamBytes hy, ih hz⟩

/-- In ACTIVE the beats of a stream are well-formed and lead to ACTIVE (42_stream.md R121). -/
theorem wellformedFrom_stream {is : List Instr} {x : List Byte} (h : streamOf is = some x) (cs : List Beat) :
    wellformedFrom .active (is.map encode ++ cs) = wellformedFrom .active cs := by
  induction is generalizing x with
  | nil => rfl
  | cons i is ih =>
    obtain ⟨y, z, hy, hz, -⟩ := streamOf_cons_eq_some h
    have hd := decode_encode (wellFormed_of_streamBytes hy)
    have hphase : lifecycle .active (.ok i) = .active := by
      obtain ⟨data, rfl, -⟩ | ⟨cnt, data, rfl, -⟩ := streamBytes_cases hy <;> rfl
    simp [wellformedFrom, hd, faultOf, hphase, ih hz]

/-! ### PUSH and HASH -/

/-- The lanes of a big-endian word are its bytes, most significant first (20_memory.md R47). -/
theorem laneByte_be32 (a b c d : Byte) :
    laneByte (be32 a b c d) 0 = a ∧ laneByte (be32 a b c d) 1 = b ∧
    laneByte (be32 a b c d) 2 = c ∧ laneByte (be32 a b c d) 3 = d := by
  refine ⟨?_, ?_, ?_, BitVec.extractLsb'_append_eq_right⟩ <;> rw [laneByte, be32]
  · rw [BitVec.extractLsb'_append_eq_of_le (by decide), BitVec.extractLsb'_append_eq_of_le (by decide)]
    exact BitVec.extractLsb'_append_eq_left
  · rw [BitVec.extractLsb'_append_eq_of_le (by decide), BitVec.extractLsb'_append_eq_of_le (by decide)]
    exact BitVec.extractLsb'_append_eq_right
  · rw [BitVec.extractLsb'_append_eq_of_le (by decide)]
    exact BitVec.extractLsb'_append_eq_right

/-- PUSH of a byte sequence carries that sequence (R75). -/
theorem streamOf_pushBytes (m : List Byte) : streamOf (pushBytes m) = some m := by
  induction m using pushBytes.induct with
  | case1 => rfl
  | case2 | case3 | case4 => simp [pushBytes, streamOf, streamBytes, updateBytes, laneByte_be32, List.range_succ]
  | case5 a b c d rest ih =>
    simp [pushBytes, streamOf, streamBytes, updateBytes, laneByte_be32, List.range_succ, ih]

/-! ### The log and the ports beside an effect -/

/-- The state with another command log and other values at its ports. -/
def withHost (l : List Beat) (p : Ports) (s : State) : State := { s with log := l, toPorts := p }

theorem appendBytes_withHost (xs : List Byte) (l : List Beat) (p : Ports) (s : State) :
    appendBytes xs (withHost l p s) = withHost l p (appendBytes xs s) := by
  induction xs generalizing s with
  | nil => rfl
  | cons x xs ih =>
    have hx : appendByte x (withHost l p s) = withHost l p (appendByte x s) := by
      simp only [appendByte, apply_ite (withHost l p)]
      rfl
    rw [appendBytes_cons, hx, ih, appendBytes_cons]

theorem finish_withHost (l : List Beat) (p : Ports) (s : State) :
    finish (withHost l p s) = withHost l p (finish s) := by
  have hfill (i : Nat) (u : State) : padFill i (withHost l p u) = withHost l p (padFill i u) := by
    simp only [padFill, apply_ite (withHost l p)]
    rfl
  have hmark : padMarker (withHost l p s) = withHost l p (padMarker s) := rfl
  simp only [finish, hmark]
  rw [show (withHost l p s).plen = s.plen from rfl, hfill]
  rfl

theorem effect_withHost (i : Instr) (l : List Beat) (p : Ports) (s : State) :
    effect i (withHost l p s) = withHost l p (effect i s) := by
  cases i with
  | nop data => simp [effect]
  | init data =>
    simp only [effect, apply_ite (withHost l p)]
    rfl
  | update cnt data =>
    simp only [effect, appendBytes_withHost, apply_ite (withHost l p)]
    rfl
  | final data =>
    simp only [effect, finish_withHost, apply_ite (withHost l p)]
    rfl

/-- An accepted beat neither reads nor writes the command log and the ports (10_state.md R20). -/
theorem acceptEffect_withHost (c : Beat) (l : List Beat) (p : Ports) (s : State) :
    acceptEffect c (withHost l p s) = withHost l p (acceptEffect c s) := by
  simp only [acceptEffect, apply_ite (withHost l p)]
  cases decode c with
  | error x => rfl
  | ok i =>
    simp only [effect_withHost]
    rfl

theorem acceptAll_withHost (cs : List Beat) (l : List Beat) (p : Ports) (s : State) :
    acceptAll cs (withHost l p s) = withHost l p (acceptAll cs s) := by
  induction cs generalizing s with
  | nil => rfl
  | cons c cs ih => rw [acceptAll_cons, acceptEffect_withHost, ih, acceptAll_cons]

/-! ### The run over the host's moves -/

/-- A step of a ready block on a move that is no reset uses up the move, accepts its beat if it has one, logs it, and
leaves the block ready; everything else it does is at the ports. -/
theorem step_accepts {s : State} {m : HostMove} {rest : List HostMove} (hb : s.busy = false)
    (hi : s.inbox = m :: rest) (hm : ∀ held, m ≠ .reset held) :
    ∃ p : Ports, p.busy = false ∧ p.inbox = rest ∧
      step s = .next (withHost (s.log ++ beatsToCome [m]) p (acceptAll (beatsToCome [m]) s)) := by
  cases m with
  | issue c reads =>
    obtain ⟨⟨t, tp⟩, hstep, rfl, hbusy, hinbox⟩ := step_accept hb hi
    refine ⟨tp, hbusy, hinbox, hstep.trans ?_⟩
    have hstart : logged c rest (beginStep s) = withHost (s.log ++ [c]) (logged c rest (beginStep s)).toPorts s := rfl
    rw [hstart, acceptEffect_withHost]
    rfl
  | read port =>
    refine ⟨(serveRead port { beginStep s with inbox := rest }).toPorts, hb, rfl, (step_read hi).trans ?_⟩
    simp only [beatsToCome, List.append_nil]
    rfl
  | idle =>
    refine ⟨{ s with inbox := rest, readings := [] }, hb, rfl, (step_idle hb hi).trans ?_⟩
    simp only [beatsToCome, List.append_nil]
    rfl
  | reset held => exact absurd rfl (hm held)

/-- The beats of a move that is no reset come before those of the moves after it. -/
theorem beatsToCome_cons {m : HostMove} (hm : ∀ held, m ≠ .reset held) (rest : List HostMove) :
    beatsToCome (m :: rest) = beatsToCome [m] ++ beatsToCome rest := by
  cases m with
  | issue | read | idle => rfl
  | reset held => exact absurd rfl (hm held)

/-- A run goes on from the state its first step answers. -/
theorem run_succ {s t : State} (n : Nat) (h : step s = .next t) :
    Sys2Proof.core.run (n + 1) s = Sys2Proof.core.run n t := by
  have hstep : Sys2Proof.core.step s = .next t := h
  simp only [Host.Core.run, hstep]

/-- From a ready block, in at most as many steps as the host has moves, the run ends: the beats to come have been
accepted and logged in order, and everything else that happened is at the ports. -/
theorem run_accepts {s : State} (hb : s.busy = false) :
    ∃ (n : Nat) (p : Ports), n ≤ s.inbox.length ∧ p.busy = false ∧ beatsToCome p.inbox = [] ∧
      Sys2Proof.core.run n s =
        .next (withHost (s.log ++ beatsToCome s.inbox) p (acceptAll (beatsToCome s.inbox) s)) := by
  induction hi : s.inbox generalizing s with
  | nil =>
    refine ⟨0, s.toPorts, Nat.zero_le _, hb, by rw [hi, beatsToCome], ?_⟩
    rw [beatsToCome, List.append_nil]
    rfl
  | cons m rest ih =>
    obtain ⟨held, rfl⟩ | hm := em (∃ held, m = .reset held)
    · refine ⟨0, s.toPorts, Nat.zero_le _, hb, by rw [hi, beatsToCome], ?_⟩
      rw [beatsToCome, List.append_nil]
      rfl
    · obtain ⟨q, hq, hqi, hstep⟩ := step_accepts hb hi (not_exists.mp hm)
      obtain ⟨n, p, hn, hp, hpi, hrun⟩ :=
        ih (s := withHost (s.log ++ beatsToCome [m]) q (acceptAll (beatsToCome [m]) s)) hq hqi
      refine ⟨n + 1, p, Nat.succ_le_succ hn, hp, hpi, ?_⟩
      rw [run_succ n hstep, hrun, acceptAll_withHost, beatsToCome_cons (not_exists.mp hm) rest, acceptAll_append,
        ← List.append_assoc]
      rfl

/-! ### The end of the run of INIT; PUSH M; FINAL -/

/-- The beats of INIT; PUSH M; FINAL are well-formed from UNINIT (70_reset_and_hazards.md section 5). -/
theorem wellformedFrom_hashBytes (m : List Byte) : wellformedFrom .uninit ((hashBytes m).map encode) = true := by
  have hinit : decode (encode (.init 0#32)) = .ok (.init 0#32) := decode_encode rfl
  have hfinal : decode (encode (.final 0#32)) = .ok (.final 0#32) := decode_encode rfl
  rw [hashBytes, List.cons_append, List.map_cons, List.map_append, wellformedFrom, hinit]
  simp [lifecycle, faultOf, wellformedFrom_stream (streamOf_pushBytes m), wellformedFrom, hfinal]

/-- Accepting those beats leaves the finished context of M. -/
theorem acceptAll_hashBytes (m : List Byte) {s : State} (hp : s.phase ≠ .faulted) :
    acceptAll ((hashBytes m).map encode) s = finish (messageContext m s) := by
  have hw : ∀ i ∈ hashBytes m, i.wellFormed = true := by
    simpa [hashBytes, Instr.wellFormed, or_imp, forall_and] using wellFormed_of_streamOf (streamOf_pushBytes m)
  obtain ⟨hrun, -⟩ := run_computation 0#32 0#32 hp (streamOf_pushBytes m)
  exact Host.Outcome.next.inj ((runInstrs_eq_acceptAll hw s).symm.trans hrun)

/-- INIT, the appends and FINAL keep FCAUSE and the fault record. -/
theorem finish_messageContext_fault (m : List Byte) (s : State) :
    (finish (messageContext m s)).fcause = s.fcause ∧ (finish (messageContext m s)).faultRecord = s.faultRecord := by
  obtain ⟨-, hfcause, -, hrecord, -⟩ := appendBytes_frame m (startContext s)
  obtain ⟨-, -, -, hfcause', -, hrecord', -⟩ := finish_registers (messageContext m s)
  exact ⟨hfcause'.trans hfcause, hrecord'.trans hrecord⟩

/-- An ended run without a fault in FINALIZED is observed as STATUS = 0x6 with H. -/
theorem observation_of_finalized {s : State} (hb : s.busy = false) (hp : s.phase = .finalized) (hf : s.fcause = 0#4)
    (hr : s.faultRecord = []) : observation s = some (0x00000006#32, some (digestWord s.h)) := by
  have hstatus : statusWord s = 0x00000006#32 := by
    simp [statusWord, plenView, digestValid, Phase.code, hb, hp, hf]
  simp [observation, hstatus, digestValid, hp, hr]

/-- Settles O56: the run accepts the beats to come one after another, which is the whole computation of M. -/
theorem endOfRunDigestOfMessage : Obligations.EndOfRunDigestOfMessage := by
  intro m s ⟨hphase, hfcause, hb, hrecord, hlog⟩ _ hbeats
  obtain ⟨n, p, hn, hpb, hpi, hrun⟩ := run_accepts hb
  obtain ⟨hf, hr⟩ := finish_messageContext_fault m s
  obtain ⟨-, -, hfinalized, -⟩ := finish_registers (messageContext m s)
  rw [hbeats, hlog, acceptAll_hashBytes m (by simp [hphase])] at hrun
  refine ⟨wellformedFrom_hashBytes m, n, _, hn, hrun, ⟨hpi, hpb⟩, hr.trans hrecord, rfl, ?_⟩
  rw [← finish_messageContext_h m s]
  exact observation_of_finalized hpb hfinalized (hf.trans hfcause) (hr.trans hrecord)

end Sys2Proof.Machine

/-! PROOFS. The decoder and the encoder, O1, O2, O3 (30_encoding.md R63, R68, R69). -/

namespace Sys2Proof.Machine

open Sys2Proof.Safety

/-- Settles O1: the fields of the beat are the command's, and the decoder's checks pass on them. -/
theorem decodeOfEncode : Obligations.DecodeOfEncode := fun _ => decode_encode

/-- Settles O2: the command an accepted beat reads as has the fields of the beat, and a beat is made up of its fields. -/
theorem encodeOfDecode : Obligations.EncodeOfDecode := fun _ _ hd => ⟨wellFormed_of_decode hd, encode_of_decode hd⟩

/-- In ACTIVE a beat faults with a cause exactly when the decoder rejects it with that cause. -/
theorem decode_eq_error_iff (c : Beat) (x : Cause) : decode c = .error x ↔ faultOf .active (decode c) = some x := by
  cases decode c <;> simp [faultOf]

/-- Settles O3: the decoder's causes are those of `faultOf` in ACTIVE, which are the conditions of R140 in their order;
RSV = 0 and CNT ≤ 4 are what the earlier conditions leave. -/
theorem decodeRejectsExactlyTheReserved : Obligations.DecodeRejectsExactlyTheReserved := by
  intro c
  have hrsv : rsvField c = 0#1 ↔ ¬ rsvField c = 1#1 := by generalize rsvField c = r; revert r; decide
  have hopc (h : 4 ≤ (opcField c).toNat) : opcField c ≠ 2#4 := by rintro h2; simp [h2] at h
  have hcnt : 5 ≤ (cntField c).toNat ↔ 4 < (cntField c).toNat := Iff.rfl
  simp only [ne_eq, decode_eq_error_iff, faultOf_decode (p := .active) nofun, hrsv, hcnt]
  split_ifs with hcode hfield hcount hactive
  · simp [hcode, hopc hcode]
  · simpa [Nat.not_le.mp hcode, hfield] using fun ho hr => absurd hfield (by simp [ho, hr])
  · simpa [hcount] using not_or.mp hfield |>.1
  · exact absurd trivial hactive.2
  · simpa [hcode, hfield] using fun ho _ => Nat.not_lt.mp fun hn => hcount ⟨ho, hn⟩
end Sys2Proof.Machine

/-! PROOFS. What a command, an accepted beat and a step can do to the block, each said once. -/

namespace Sys2Proof.Machine

open Sys2Proof.Safety

/-- Everything a command can do, whatever its operand: nothing, a new context, a fault of its own beat, or, in ACTIVE
only, appends or FINAL. -/
theorem effect_cases (i : Instr) (s : State) :
    effect i s = s ∨ effect i s = startContext s ∨ (∃ x, effect i s = takeFault x (encode i) s) ∨
    (s.phase = .active ∧ ∃ xs, effect i s = appendBytes xs s) ∨ (s.phase = .active ∧ effect i s = finish s) := by
  by_cases hf : s.phase = .faulted
  · exact .inl (if_pos hf)
  · cases i with
    | nop data => exact .inl (if_neg hf)
    | init data => exact .inr (.inl (if_neg hf))
    | update cnt data =>
      simp only [effect, if_neg hf]
      split_ifs with hc hp
      · exact .inr (.inr (.inl ⟨_, rfl⟩))
      · exact .inr (.inr (.inr (.inl ⟨hp, _, rfl⟩)))
      · exact .inr (.inr (.inl ⟨_, rfl⟩))
    | final data =>
      simp only [effect, if_neg hf]
      split_ifs with hp
      · exact .inr (.inr (.inr (.inr ⟨hp, rfl⟩)))
      · exact .inr (.inr (.inl ⟨_, rfl⟩))

/-- The effect of a command is the state exec answers. -/
theorem effect_of_exec {i : Instr} {s t : State} (h : exec i s = .next t) : effect i s = t :=
  Host.Outcome.next.inj ((exec_eq i s).symm.trans h)

theorem appendBytes_phase (xs : List Byte) (s : State) : (appendBytes xs s).phase = s.phase :=
  (appendBytes_frame xs s).1

theorem finish_phase (s : State) : (finish s).phase = .finalized := by
  obtain ⟨-, -, hphase, -⟩ := finish_registers s
  exact hphase

/-- An UPDATE or a FINAL without a fault, and not discarded, runs in ACTIVE (60_exceptions.md R138). -/
theorem eq_active_of_no_fault {p : Phase} {i : Instr} (hp : p ≠ .faulted) (h : faultOf p (.ok i) = none)
    (hi : (∃ cnt data, i = .update cnt data) ∨ ∃ data, i = .final data) : p = .active := by
  obtain ⟨cnt, data, rfl⟩ | ⟨data, rfl⟩ := hi <;> cases p <;> simp [faultOf] at h hp ⊢

/-- Everything an accepted beat can do, decided by the beat and PHASE: it is discarded, faults, or is a NOP, an INIT or,
in ACTIVE only, an UPDATE or a FINAL. -/
theorem acceptEffect_cases (c : Beat) (p : Phase) :
    p = .faulted ∨
    (∃ x, ∀ s : State, s.phase = p → acceptEffect c s = takeFault x c s) ∨
    (∃ data, decode c = .ok (.nop data) ∧ ∀ s : State, s.phase = p → acceptEffect c s = s) ∨
    (∃ data, decode c = .ok (.init data) ∧ ∀ s : State, s.phase = p → acceptEffect c s = startContext s) ∨
    (p = .active ∧ ∃ cnt data, decode c = .ok (.update cnt data) ∧
      ∀ s : State, s.phase = p → acceptEffect c s = appendBytes (updateBytes cnt data) s) ∨
    (p = .active ∧ ∃ data, decode c = .ok (.final data) ∧
      ∀ s : State, s.phase = p → acceptEffect c s = finish s) := by
  by_cases hf : p = .faulted
  · exact .inl hf
  cases hfault : faultOf p (decode c) with
  | some x => exact .inr (.inl ⟨x, fun s hs => acceptEffect_of_fault (hs ▸ hfault)⟩)
  | none =>
    cases hd : decode c with
    | error x => simp [hd, faultOf_error hf] at hfault
    | ok i =>
      rw [hd] at hfault
      have heff {s t : State} (hs : s.phase = p) (h : exec i s = .next t) : acceptEffect c s = t :=
        (acceptEffect_of_decode (hs ▸ hf) hd).trans (effect_of_exec h)
      cases i with
      | nop data => exact .inr (.inr (.inl ⟨data, rfl, fun s hs => heff hs rfl⟩))
      | init data =>
        exact .inr (.inr (.inr (.inl ⟨data, rfl, fun s hs => heff hs (exec_init_of_not_faulted data (hs ▸ hf))⟩)))
      | update cnt data =>
        obtain rfl := eq_active_of_no_fault hf hfault (.inl ⟨cnt, data, rfl⟩)
        have hc : cnt.toNat ≤ 4 := of_decide_eq_true (wellFormed_of_decode hd)
        exact .inr (.inr (.inr (.inr (.inl ⟨rfl, cnt, data, rfl, fun s hs =>
          heff hs (exec_update_active data hs hc)⟩))))
      | final data =>
        obtain rfl := eq_active_of_no_fault hf hfault (.inr ⟨data, rfl⟩)
        exact .inr (.inr (.inr (.inr (.inr ⟨rfl, data, rfl, fun s hs => heff hs (exec_final_active data hs)⟩))))

/-- A step on an empty inbox, whatever BUSY. -/
theorem step_empty_inbox {s : State} (hi : s.inbox = []) : step s = .next { beginStep s with busy := false } := by
  simp only [step, takeMove, beginStep_inbox, hi, moveIdle]

/-- A step on an idle move, whatever BUSY. -/
theorem step_idle_move {s : State} {rest : List HostMove} (hi : s.inbox = .idle :: rest) :
    step s = .next { beginStep s with inbox := rest, busy := false } := by
  simp [step, takeMove, hi, moveIdle]

/-- A step on an offered beat while cmd_ready = 0. -/
theorem step_issue_of_busy {s : State} {c : Beat} {reads : List ReadPort} {rest : List HostMove} (hb : s.busy = true)
    (hi : s.inbox = .issue c reads :: rest) : step s = .next { beginStep s with busy := false } := by
  simp [step, takeMove, hi, moveIssue, cmdReady, hb]

/-- Everything a step can do to the block's own record: nothing, a reset, or the effect of an accepted beat. -/
theorem step_block_cases {s t : State} (h : step s = .next t) :
    t.toBlockState = s.toBlockState ∨ t.toBlockState = State.reset.toBlockState ∨
    ∃ c rest, t.toBlockState = (acceptEffect c (logged c rest (beginStep s))).toBlockState := by
  obtain ⟨-, hstep⟩ | ⟨rest, -, hstep⟩ | ⟨p, rest, -, hstep⟩ | ⟨held, rest, -, hstep⟩ | ⟨c, reads, rest, -, -, hstep⟩ |
    ⟨c, reads, rest, -, -, hstep⟩ := step_cases s <;> obtain rfl := Host.Outcome.next.inj (h.symm.trans hstep)
  · exact .inl rfl
  · exact .inl rfl
  · exact .inl rfl
  · obtain ⟨rs, hserve⟩ := serveWhileBusy_eq held (resetBlock { beginStep s with inbox := rest })
    exact .inr (.inl (by rw [hserve]; rfl))
  · exact .inl rfl
  · obtain ⟨rs, hserve⟩ := serveWhileBusy_eq reads (acceptEffect c (logged c rest (beginStep s)))
    exact .inr (.inr ⟨c, rest, by rw [hserve]⟩)

end Sys2Proof.Machine

/-! PROOFS. PHASE, FCAUSE and the fault record stay coherent, O47, O48 (10_state.md R32; 60_exceptions.md R136, R142). -/

namespace Sys2Proof.Machine

open Sys2Proof.Safety

/-- An accepted and logged beat keeps the fault state coherent: in FAULTED it is discarded, a beat that faults makes the
one record, and any other beat leaves FCAUSE and the record. -/
theorem faultCoherent_acceptEffect (c : Beat) (rest : List HostMove) {s : State} (h : FaultCoherent s) :
    FaultCoherent (acceptEffect c (logged c rest s)) := by
  obtain ⟨hp, hrecord, hfcause⟩ | ⟨hp, e, hrecord, hfcause, hlog, he⟩ := h
  · cases hfault : faultOf s.phase (decode c) with
    | some x =>
      rw [acceptEffect_of_fault (s := logged c rest s) hfault]
      exact .inr ⟨rfl, ⟨x, c, s.phase⟩, by simp [hrecord], rfl, by simp, hfault⟩
    | none =>
      obtain ⟨hphase', hfcause'⟩ := acceptEffect_lifecycle c (logged c rest s)
      have hrecord' := acceptEffect_faultRecord_of_no_fault (s := logged c rest s) hfault
      refine .inl ⟨hphase' ▸ lifecycle_of_no_fault hp hfault, hrecord'.trans hrecord, hfcause'.trans ?_⟩
      rw [logged_phase, hfault]
      exact hfcause
  · rw [acceptEffect_of_faulted (s := logged c rest s) c hp]
    exact .inr ⟨hp, e, hrecord, hfcause, List.mem_append_left _ hlog, he⟩

/-- Settles O48: every field it speaks of has a reset value. -/
theorem faultStateCoherentAtReset : Obligations.FaultStateCoherentAtReset := .inl ⟨nofun, rfl, rfl⟩

/-- Settles O47: a step leaves the block, resets it or accepts a beat. -/
theorem faultStateStaysCoherent : Obligations.FaultStateStaysCoherent := by
  rintro s ⟨t, tp⟩ h hstep
  obtain hblock | hblock | ⟨c, rest, hblock⟩ := step_block_cases hstep <;> obtain rfl := hblock
  · exact h
  · exact faultStateCoherentAtReset
  · exact faultCoherent_acceptEffect c rest (s := beginStep s) h

end Sys2Proof.Machine

/-! PROOFS. The context registers as a function of the context before, and the invariant that ties them to the message,
O49, O50, O26, O55 (10_state.md R38; 42_stream.md R112, R118, R119, R127). -/

namespace Sys2Proof.Machine

open Sys2Proof.Safety

/-! ### Contexts that agree -/

/-- Two states agree on everything of a context in progress that has a meaning: H, PLEN, TBITS and the buffered bytes
(10_state.md R24, R38). The stale bytes at and above PLEN are left out. -/
def SameContext (s t : State) : Prop :=
  s.h = t.h ∧ s.plen = t.plen ∧ s.tbits = t.tbits ∧ pending s = pending t

theorem sameContext_startContext (s t : State) : SameContext (startContext s) (startContext t) := by
  refine ⟨rfl, rfl, rfl, ?_⟩
  rw [pending_startContext, pending_startContext]

/-- An append reads nothing else of the context. -/
theorem sameContext_appendBytes (xs : List Byte) {s t : State} (h : SameContext s t) :
    SameContext (appendBytes xs s) (appendBytes xs t) := by
  obtain ⟨hh, hplen, htbits, hpending⟩ := h
  obtain ⟨sh, stbits, spending⟩ := appendBytes_spec xs s
  obtain ⟨th, ttbits, tpending⟩ := appendBytes_spec xs t
  refine ⟨?_, BitVec.eq_of_toNat_eq ?_, ?_, ?_⟩
  · rw [sh, th, hh, hpending]
  · rw [appendBytes_plen, appendBytes_plen, hplen]
  · rw [stbits, ttbits, htbits, hpending]
  · rw [spending, tpending, hpending]

/-- Nor does FINAL, for H and TBITS. -/
theorem finish_of_sameContext {s t : State} (h : SameContext s t) :
    (finish s).h = (finish t).h ∧ (finish s).tbits = (finish t).tbits := by
  obtain ⟨hh, hplen, htbits, hpending⟩ := h
  obtain ⟨sbits, -⟩ := finish_registers s
  obtain ⟨tbits, -⟩ := finish_registers t
  have hbits : (finish s).tbits = (finish t).tbits := by rw [sbits, tbits, htbits, hplen]
  exact ⟨by rw [finish_h, finish_h, hh, hplen, hpending, hbits], hbits⟩

/-! ### The context of the message accepted -/

/-- The context of N message bytes is the one that INIT and their appends leave, from any state. -/
theorem activeContext_iff (m : List Byte) (s u : State) : ActiveContext m s ↔ SameContext s (messageContext m u) := by
  obtain ⟨hh, htbits, hpending⟩ := messageContext_spec m u
  have hplen : s.plen.toNat = m.length % 64 ↔ s.plen = (messageContext m u).plen := by
    rw [← messageContext_plen m u, BitVec.toNat_inj]
  have hcut (hn : s.plen.toNat = m.length % 64) : m.length - s.plen.toNat = 64 * (m.length / 64) := by omega
  have hbits : 8 * (64 * (m.length / 64)) = 512 * (m.length / 64) := by omega
  rw [ActiveContext, SameContext, ← hplen, hh, htbits, hpending, ← hbits]
  constructor
  · rintro ⟨hn, ht, hp, hs⟩
    rw [hcut hn] at ht hp
    exact ⟨hs, hn, ht, hp⟩
  · rintro ⟨hs, hn, ht, hp⟩
    rw [hcut hn]
    exact ⟨hn, ht, hp, hs⟩

theorem activeContext_startContext (s : State) : ActiveContext [] (startContext s) :=
  (activeContext_iff [] _ s).mpr (sameContext_startContext s s)

theorem activeContext_appendBytes {m : List Byte} {s : State} (xs : List Byte) (h : ActiveContext m s) :
    ActiveContext (m ++ xs) (appendBytes xs s) := by
  rw [activeContext_iff _ _ s, messageContext, appendBytes_append]
  exact sameContext_appendBytes xs ((activeContext_iff m s s).mp h)

theorem finalizedContext_finish {m : List Byte} {s : State} (h : ActiveContext m s) : FinalizedContext m (finish s) := by
  obtain ⟨hh, htbits⟩ := finish_of_sameContext ((activeContext_iff m s s).mp h)
  obtain ⟨-, hplen, -⟩ := finish_registers s
  exact ⟨hplen, htbits.trans (finish_messageContext_tbits m s),
    hh.trans (finish_messageContext_h m s)⟩

/-! ### The invariant -/

theorem streamInv_of_active {s : State} (hp : s.phase = .active) (h : ActiveContext (messageOf s.log) s) :
    StreamInv s :=
  ⟨fun _ => h, fun hf => absurd (hp.symm.trans hf) nofun⟩

theorem streamInv_of_finalized {s : State} (hp : s.phase = .finalized) (h : FinalizedContext (messageOf s.log) s) :
    StreamInv s :=
  ⟨fun ha => absurd (hp.symm.trans ha) nofun, fun _ => h⟩

/-- Nothing is said of the context in FAULTED. -/
theorem streamInv_of_faulted {s : State} (hp : s.phase = .faulted) : StreamInv s :=
  ⟨fun ha => absurd (hp.symm.trans ha) nofun, fun hf => absurd (hp.symm.trans hf) nofun⟩

/-- The message after one more accepted beat. -/
theorem messageOf_append (log : List Beat) (c : Beat) : messageOf (log ++ [c]) = messageStep (messageOf log) c :=
  List.foldl_append

/-- An accepted and logged beat keeps the context equal to that of the message: INIT starts an empty one, an UPDATE
appends its bytes to both, and FINAL leaves the digest. -/
theorem streamInv_acceptEffect (c : Beat) (rest : List HostMove) {s : State} (h : StreamInv s) :
    StreamInv (acceptEffect c (logged c rest s)) := by
  have hmessage := messageOf_append s.log c
  obtain hp | ⟨x, heff⟩ | ⟨data, hd, heff⟩ | ⟨data, hd, heff⟩ | ⟨hp, cnt, data, hd, heff⟩ | ⟨hp, data, hd, heff⟩ :=
    acceptEffect_cases c s.phase
  · rw [acceptEffect_of_faulted (s := logged c rest s) c hp]
    exact streamInv_of_faulted hp
  · rw [heff (logged c rest s) rfl]
    exact streamInv_of_faulted rfl
  · rw [heff (logged c rest s) rfl, StreamInv, logged_log, hmessage, messageStep, hd]
    exact h
  · rw [heff (logged c rest s) rfl]
    refine streamInv_of_active rfl ?_
    rw [startContext_log, logged_log, hmessage, messageStep, hd]
    exact activeContext_startContext _
  · rw [heff (logged c rest s) rfl]
    obtain ⟨-, -, -, -, hlog, -⟩ := appendBytes_frame (updateBytes cnt data) (logged c rest s)
    refine streamInv_of_active ((appendBytes_phase _ _).trans hp) ?_
    rw [hlog, logged_log, hmessage, messageStep, hd]
    exact activeContext_appendBytes (s := logged c rest s) _ (h.1 hp)
  · rw [heff (logged c rest s) rfl]
    obtain ⟨-, -, -, -, -, -, hlog, -⟩ := finish_registers (logged c rest s)
    refine streamInv_of_finalized (finish_phase _) ?_
    rw [hlog, logged_log, hmessage, messageStep, hd]
    exact finalizedContext_finish (s := logged c rest s) (h.1 hp)

/-- Settles O50: reset leaves UNINIT, of which the invariant says nothing. -/
theorem contextInvariantAtReset : Obligations.ContextInvariantAtReset := ⟨nofun, nofun⟩

/-- Settles O49: a step leaves the block, resets it or accepts a beat. -/
theorem contextFollowsTheMessage : Obligations.ContextFollowsTheMessage := by
  rintro s ⟨t, tp⟩ h hstep
  obtain hblock | hblock | ⟨c, rest, hblock⟩ := step_block_cases hstep <;> obtain rfl := hblock
  · exact h
  · exact contextInvariantAtReset
  · exact streamInv_acceptEffect c rest (s := beginStep s) h

/-- Settles O26: FINAL writes the new TBITS as the length field, and that is the bit count of the message. -/
theorem lengthFieldCountsMessageBits : Obligations.LengthFieldCountsMessageBits := by
  intro data s hp h
  obtain ⟨-, htbits, -⟩ := finalizedContext_finish (h.1 hp)
  refine ⟨finish s, exec_final_active data hp, fun k => ?_⟩
  rw [finish_lengthField s (Nat.le_add_right 56 k) (by omega), htbits, Nat.add_sub_cancel_left]

/-- Settles O55: the whole computation leaves the finished context of the message. -/
theorem protocolLeavesDigest : Obligations.ProtocolLeavesDigest := by
  intro is m first last s hp his
  obtain ⟨hrun, -⟩ := run_computation first last hp his
  obtain ⟨-, hplen, -⟩ := finish_registers (messageContext m s)
  exact ⟨_, hrun, finish_phase _, finish_messageContext_h m s, finish_messageContext_tbits m s, hplen⟩

end Sys2Proof.Machine

/-! PROOFS. Hidden and unspecified values never reach the host or a register that counts, O51, O52 (10_state.md R34,
R36, R40): every part of a step keeps two states indistinct. -/

namespace Sys2Proof.Machine

open Sys2Proof.Safety

/-- An accepted beat extends the fault record by at most the one fault it takes (60_exceptions.md R136). -/
theorem acceptEffect_faultRecord (c : Beat) (s : State) :
    (acceptEffect c s).faultRecord =
      s.faultRecord ++ ((faultOf s.phase (decode c)).map (FaultEntry.mk · c s.phase)).toList := by
  cases h : faultOf s.phase (decode c) with
  | some x => rw [acceptEffect_of_fault h]; rfl
  | none => rw [acceptEffect_faultRecord_of_no_fault h]; simp

section
variable {s t : State}

/-- An accepted beat reads of the context only what has a meaning in PHASE, and leaves the new context a function of
it. -/
theorem indistinct_acceptEffect (c : Beat) (h : Indistinct s t) : Indistinct (acceptEffect c s) (acceptEffect c t) := by
  obtain ⟨sphase, sfcause⟩ := acceptEffect_lifecycle c s
  obtain ⟨tphase, tfcause⟩ := acceptEffect_lifecycle c t
  obtain ⟨sbusy, slog, sinbox, sreadings, sdraws⟩ := acceptEffect_frame c s
  obtain ⟨tbusy, tlog, tinbox, treadings, tdraws⟩ := acceptEffect_frame c t
  have hcontext : ((acceptEffect c s).phase = .active → SameContext (acceptEffect c s) (acceptEffect c t)) ∧
      ((acceptEffect c s).phase = .finalized → (acceptEffect c s).h = (acceptEffect c t).h) := by
    obtain hp | ⟨x, heff⟩ | ⟨data, hd, heff⟩ | ⟨data, hd, heff⟩ | ⟨hp, cnt, data, hd, heff⟩ | ⟨hp, data, hd, heff⟩ :=
      acceptEffect_cases c s.phase
    · rw [acceptEffect_of_faulted c hp, hp]
      exact ⟨nofun, nofun⟩
    · rw [heff s rfl]
      exact ⟨nofun, nofun⟩
    · rw [heff s rfl, heff t h.phase.symm]
      exact ⟨h.active, h.finalized⟩
    · rw [heff s rfl, heff t h.phase.symm]
      exact ⟨fun _ => sameContext_startContext s t, nofun⟩
    · rw [heff s rfl, heff t h.phase.symm, appendBytes_phase, hp]
      exact ⟨fun _ => sameContext_appendBytes _ (h.active hp), nofun⟩
    · rw [heff s rfl, heff t h.phase.symm, finish_phase]
      exact ⟨nofun, fun _ => (finish_of_sameContext (h.active hp)).1⟩
  exact {
    phase := by rw [sphase, tphase, h.phase]
    fcause := by rw [sfcause, tfcause, h.phase, h.fcause]
    busy := by rw [sbusy, tbusy, h.busy]
    faultRecord := by rw [acceptEffect_faultRecord, acceptEffect_faultRecord, h.phase, h.faultRecord]
    log := by rw [slog, tlog, h.log]
    inbox := by rw [sinbox, tinbox, h.inbox]
    readings := by rw [sreadings, treadings, h.readings]
    draws := by rw [sdraws, tdraws, h.draws]
    active := hcontext.1
    finalized := hcontext.2 }

/-- A read of either port returns the same value: PLEN shows in ACTIVE only, and H in FINALIZED only (R34, R35). -/
theorem portRead_of_indistinct (p : ReadPort) (h : Indistinct s t) : portRead p s = portRead p t := by
  cases p with
  | status =>
    have hview : plenView s = plenView t := by
      rw [plenView, plenView, ← h.phase]
      split_ifs with hp
      · obtain ⟨-, hplen, -⟩ := h.active hp
        exact hplen
      · rfl
    simp only [portRead, statusRead, statusWord, digestValid, hview, h.phase, h.fcause, h.busy, h.draws]
  | digest =>
    simp only [portRead, digestRead, h.draws, h.busy, ← h.phase]
    split_ifs with hb hp
    · rfl
    · rw [h.finalized hp]
    · rfl

theorem indistinct_serveRead (p : ReadPort) (h : Indistinct s t) : Indistinct (serveRead p s) (serveRead p t) :=
  { h with
    readings := by rw [serveRead_readings, serveRead_readings, h.readings, portRead_of_indistinct p h]
    draws := by rw [serveRead_draws, serveRead_draws, h.draws] }

theorem indistinct_withBusy (b : Bool) (h : Indistinct s t) :
    Indistinct { s with busy := b } { t with busy := b } :=
  { h with busy := rfl }

theorem indistinct_serveReads (ports : List ReadPort) (h : Indistinct s t) :
    Indistinct (ports.foldl (fun u p => serveRead p u) s) (ports.foldl (fun u p => serveRead p u) t) := by
  induction ports generalizing s t with
  | nil => exact h
  | cons p ps ih => exact ih (indistinct_serveRead p h)

theorem indistinct_serveWhileBusy (ports : List ReadPort) (h : Indistinct s t) :
    Indistinct (serveWhileBusy ports s) (serveWhileBusy ports t) :=
  indistinct_withBusy false (indistinct_serveReads ports (indistinct_withBusy true h))

theorem indistinct_withInbox (rest : List HostMove) (h : Indistinct s t) :
    Indistinct { s with inbox := rest } { t with inbox := rest } :=
  { h with inbox := rfl }

theorem indistinct_beginStep (h : Indistinct s t) : Indistinct (beginStep s) (beginStep t) :=
  { h with readings := rfl }

theorem indistinct_logged (c : Beat) (rest : List HostMove) (h : Indistinct s t) :
    Indistinct (logged c rest s) (logged c rest t) :=
  { h with inbox := rfl, log := by rw [logged_log, logged_log, h.log] }

/-- What a reset leaves depends on the ports only. -/
theorem indistinct_resetBlock (h : Indistinct s t) : Indistinct (resetBlock s) (resetBlock t) where
  phase := rfl
  fcause := rfl
  busy := rfl
  faultRecord := rfl
  log := rfl
  inbox := h.inbox
  readings := h.readings
  draws := h.draws
  active := nofun
  finalized := nofun

/-- The step each move leads to is the same for both, and so are its reads. -/
theorem indistinct_step {s' : State} (h : Indistinct s t) (hstep : step s = .next s') :
    ∃ t', step t = .next t' ∧ Indistinct s' t' := by
  have hbegin := indistinct_beginStep h
  obtain ⟨hi, heq⟩ | ⟨rest, hi, heq⟩ | ⟨p, rest, hi, heq⟩ | ⟨held, rest, hi, heq⟩ | ⟨c, reads, rest, hi, hb, heq⟩ |
    ⟨c, reads, rest, hi, hb, heq⟩ := step_cases s <;>
    obtain rfl := Host.Outcome.next.inj (hstep.symm.trans heq) <;> rw [h.inbox] at hi
  · exact ⟨_, step_empty_inbox hi, indistinct_withBusy false hbegin⟩
  · exact ⟨_, step_idle_move hi, indistinct_withBusy false (indistinct_withInbox rest hbegin)⟩
  · exact ⟨_, step_read hi, indistinct_serveRead p (indistinct_withInbox rest hbegin)⟩
  · exact ⟨_, step_reset hi, indistinct_serveWhileBusy held (indistinct_resetBlock (indistinct_withInbox rest hbegin))⟩
  · exact ⟨_, step_issue_of_busy (h.busy.symm.trans hb) hi, indistinct_withBusy false hbegin⟩
  · exact ⟨_, step_issue (h.busy.symm.trans hb) hi,
      indistinct_serveWhileBusy reads (indistinct_acceptEffect c (indistinct_logged c rest hbegin))⟩

end

/-- Settles O52: in UNINIT nothing is compared but what reset fixes. -/
theorem resetValuesAreIndistinct : Obligations.ResetValuesAreIndistinct := fun _ _ _ _ =>
  ⟨rfl, rfl, rfl, rfl, rfl, rfl, rfl, rfl, nofun, nofun⟩

/-- Settles O51: every move keeps two states indistinct. -/
theorem hiddenValuesNeverLeak : Obligations.HiddenValuesNeverLeak := fun _ _ _ => indistinct_step

end Sys2Proof.Machine

/-! PROOFS. The assembler's commands, O5, O6, O7 (30_encoding.md R74, R75). -/

namespace Sys2Proof.Machine

open Sys2Proof.Safety

/-- PUSH of L bytes is ceil(L/4) commands. -/
theorem pushBytes_length (m : List Byte) : (pushBytes m).length = (m.length + 3) / 4 := by
  induction m using pushBytes.induct with
  | case1 => rfl
  | case2 | case3 | case4 => simp [pushBytes]
  | case5 a b c d rest ih => simp only [pushBytes, List.length_cons, ih]; omega

theorem wellFormed_of_mem_pushBytes {m : List Byte} : ∀ i ∈ pushBytes m, i.wellFormed = true :=
  wellFormed_of_streamOf (streamOf_pushBytes m)

/-- Settles O5: the commands of PUSH are a stream, so each is well-formed. -/
theorem pushCarriesItsBytes : Obligations.PushCarriesItsBytes := fun m =>
  ⟨streamOf_pushBytes m, pushBytes_length m, wellFormed_of_mem_pushBytes⟩

/-- A line that is one UPDATE carries the operand of that UPDATE. -/
theorem streamOf_update {cnt : BitVec 3} (data : Word) (hc : cnt.toNat ≤ 4) :
    streamOf [.update cnt data] = some (updateBytes cnt data) := by
  simp [streamOf, streamBytes, hc]

/-- Settles O6: each of the three lines is one UPDATE, whose lanes are read off. -/
theorem pseudoUpdatesCarryTheirBytes : Obligations.PseudoUpdatesCarryTheirBytes := by
  intro b w
  refine ⟨(streamOf_update (cnt := 1#3) _ (by decide)).trans ?byte, streamOf_update (cnt := 4#3) w (by decide),
    streamOf_update (cnt := 0#3) _ (by decide)⟩
  case byte =>
    have hlane : laneByte (b.setWidth 32 <<< 24) 0 = b := by
      ext k hk
      have h1 : 24 + k < 32 := by omega
      simp [laneByte, hk, h1]
    exact congrArg (fun x => some [x]) hlane

/-- A count the assembler accepts is the count of its command. -/
theorem wellFormed_update_ofNat {cnt : Nat} (data : Word) (hc : cnt ≤ 4) :
    (Instr.update (BitVec.ofNat 3 cnt) data).wellFormed = true := by
  have hcnt : (BitVec.ofNat 3 cnt).toNat = cnt := by rw [BitVec.toNat_ofNat, Nat.mod_eq_of_lt (by omega)]
  exact decide_eq_true (hcnt.trans_le hc)

/-- Settles O7, line by line: PUSH and HASH by the stream they are, the others by their one command. -/
theorem assembledCommandsAreWellFormed : Obligations.AssembledCommandsAreWellFormed := by
  refine ⟨fun cnt data => by simp [assemble], fun line is h => ?_⟩
  cases line with
  | nop | init | final | updateB | updateW | updateEmpty =>
    cases h
    exact List.forall_mem_singleton.mpr rfl
  | update cnt data =>
    rw [assemble] at h
    split_ifs at h with hc
    cases h
    exact List.forall_mem_singleton.mpr (wellFormed_update_ofNat data hc)
  | push bytes =>
    cases h
    exact wellFormed_of_mem_pushBytes
  | hash bytes =>
    cases h
    exact List.forall_mem_append.mpr
      ⟨List.forall_mem_cons.mpr ⟨rfl, wellFormed_of_mem_pushBytes⟩, List.forall_mem_singleton.mpr rfl⟩

end Sys2Proof.Machine

/-! PROOFS. The rotation and the mixing functions bit by bit, and the design with a 16-word window, O11, O12, O13, O14
(41_transform.md R92, R97, R99, R100). -/

namespace Sys2Proof.Machine

/-! ### The rotation -/

/-- `rotl32` is the library's rotation. -/
theorem rotl32_eq_rotateLeft (x : Word) {n : Nat} (hn : n < 32) : rotl32 x n = x.rotateLeft n := by
  rw [BitVec.rotateLeft_def, rotl32, Nat.mod_eq_of_lt hn]

/-- Settles O11: the bit lands below bit 32, or wraps to where the right shift puts it. -/
theorem rotationMovesEveryBit : Obligations.RotationMovesEveryBit := by
  intro x n i h1 h31 hi
  rw [rotl32_eq_rotateLeft x (by omega), BitVec.getLsbD_rotateLeft_of_le (by omega)]
  obtain hlt | hge := Nat.lt_or_ge (i + n) 32
  · have hlo : ¬ i + n < n := by omega
    simp [Nat.mod_eq_of_lt hlt, hlo, hlt]
  · have hwrap : (i + n) % 32 = i + n - 32 := by omega
    have hlo : i + n - 32 < n := by omega
    have hat : 32 - n + (i + n - 32) = i := by omega
    simp [hwrap, hlo, hat]

/-! ### The mixing functions -/

/-- Settles O12: a majority with two equal arguments bit by bit, the rest by the laws of the operations. -/
theorem mixingCornerCases : Obligations.MixingCornerCases := by
  have hfirst : ∀ p q : Bool, (p && p || p && q || p && q) = p := by decide
  have hmiddle : ∀ p q : Bool, (p && q || p && p || q && p) = p := by decide
  have hlast : ∀ p q : Bool, (q && p || q && p || p && p) = p := by decide
  have hones : 0xFFFFFFFF#32 = BitVec.allOnes 32 := rfl
  intro x y z
  refine ⟨?_, ?_, ?_, ?_, ?_, ?_, BitVec.or_comm _ _⟩
  · rw [ch, BitVec.not_zero, BitVec.allOnes_and, BitVec.zero_and, BitVec.zero_or]
  · rw [hones, ch, BitVec.not_allOnes, BitVec.allOnes_and, BitVec.zero_and, BitVec.or_zero]
  · ext i; simpa only [maj, BitVec.getElem_or, BitVec.getElem_and] using hfirst x[i] z[i]
  · ext i; simpa only [maj, BitVec.getElem_or, BitVec.getElem_and] using hmiddle x[i] z[i]
  · ext i; simpa only [maj, BitVec.getElem_or, BitVec.getElem_and] using hlast x[i] z[i]
  · simp [parity]

/-- Settles O13: on each bit, both sides are the same function of three bits. -/
theorem equivalentChoiceAndMajority : Obligations.EquivalentChoiceAndMajority := by
  have hbit : ∀ p q r : Bool,
      (p && q || !p && r) = (p && q ^^ !p && r) ∧ (p && q || !p && r) = (r ^^ (p && (q ^^ r))) ∧
      (p && q || p && r || q && r) = (p && q ^^ p && r ^^ q && r) ∧
      (p && q || p && r || q && r) = (p && q || r && (p || q)) := by decide
  intro x y z
  refine ⟨?_, ?_, ?_, ?_⟩ <;> ext i hi <;> obtain ⟨hch, hchShort, hmaj, hmajShort⟩ := hbit x[i] y[i] z[i]
  · simpa [ch] using hch
  · simpa [ch, chShort] using hchShort
  · simpa [maj] using hmaj
  · simpa [maj, majShort] using hmajShort

/-! ### The windowed design -/

theorem mixShort_eq_mix (t : Nat) (b c d : Word) : mixShort t b c d = mix t b c d := by
  obtain ⟨-, hch, -, hmaj⟩ := equivalentChoiceAndMajority b c d
  rw [mixShort, mix, hch, hmaj]

/-- The window before round `t` holds the 16 schedule words that precede `W[t]`, or before round 16 the words of the
block, each at its index modulo 16 (R100). -/
def HoldsSchedule (b : Block) (t : Nat) (w : Vector Word 16) : Prop :=
  ∀ u, u < max t 16 → max t 16 ≤ u + 16 → w[u % 16] = scheduleWord b u

theorem holdsSchedule_message (b : Block) : HoldsSchedule b 0 (Vector.ofFn (messageWord b)) := by
  intro u hu _
  have hu' : u < 16 := by simpa using hu
  simp only [Nat.mod_eq_of_lt hu', Vector.getElem_ofFn]
  exact (scheduleWord_message b ⟨u, hu'⟩).symm

/-- Sliding the window puts `W[t]` in the place of `W[t - 16]`, the oldest word, after reading it. -/
theorem holdsSchedule_slideWindow {b : Block} {t : Nat} {w : Vector Word 16} (ht : t < 80) (h : HoldsSchedule b t w) :
    HoldsSchedule b (t + 1) (slideWindow t w) := by
  obtain hlt | hge := Nat.lt_or_ge t 16
  · rw [slideWindow, if_pos hlt]
    intro u hu hlo
    exact h u (by omega) (by omega)
  · intro u hu hlo
    have hread (k : Nat) (h1 : 1 ≤ k) (h16 : k ≤ 16) : w[(t - k) % 16] = scheduleWord b (t - k) :=
      h (t - k) (by omega) (by omega)
    rw [slideWindow, if_neg (Nat.not_lt.mpr hge), Vector.getElem_set]
    split_ifs with hat
    · obtain rfl : u = t := by omega
      rw [scheduleWord_recurrence b hge ht, hread 3, hread 8, hread 14, hread 16] <;> decide
    · exact h u (by omega) (by omega)

/-- Round by round the window holds the schedule, and the working variables are those of the design that keeps all 80
words. -/
theorem windowRounds_spec (b : Block) (s : HashState) {n : Nat} (hn : n ≤ 80) :
    HoldsSchedule b n (windowRounds b s n).1 ∧
    (windowRounds b s n).2 = roundsFrom (schedule b) (loadWorking s) n := by
  induction n with
  | zero => exact ⟨holdsSchedule_message b, rfl⟩
  | succ t ih =>
    obtain ⟨hwindow, hworking⟩ := ih (by omega)
    have hslid := holdsSchedule_slideWindow (by omega) hwindow
    have hword : (slideWindow t (windowRounds b s t).1)[t % 16] = scheduleWord b t := hslid t (by omega) (by omega)
    refine ⟨hslid, ?_⟩
    rw [roundsFrom_schedule_succ, ← hworking, ← hword]
    simp only [windowRounds, roundStep, mixShort_eq_mix]

/-- Settles O14: after 80 rounds the working variables agree. -/
theorem windowedDesignEqualsTransform : Obligations.WindowedDesignEqualsTransform := by
  intro s b
  obtain ⟨-, hworking⟩ := windowRounds_spec b s le_rfl
  rw [windowTransform, hworking, transform]

end Sys2Proof.Machine

/-! PROOFS. Where a run of appends stores its bytes, O19, O20, O21 (20_memory.md R45, R47; 42_stream.md R112). -/

namespace Sys2Proof.Machine

open Sys2Proof.Safety

/-- A run of appends writes no byte of PBUF but those at the addresses it passes, which go round modulo 64. -/
theorem readPbuf_appendBytes_of_ne {xs : List Byte} {s : State} {k : Fin 64}
    (h : ∀ j, j < xs.length → k.val ≠ (s.plen.toNat + j) % 64) : readPbuf (appendBytes xs s) k = readPbuf s k := by
  induction xs generalizing s with
  | nil => rfl
  | cons x xs ih =>
    have hplen := s.plen.isLt
    have hfirst : k.val ≠ s.plen.toNat := by simpa [Nat.mod_eq_of_lt hplen] using h 0 (by simp)
    have hnext : (appendByte x s).plen.toNat = (s.plen.toNat + 1) % 64 := appendBytes_plen [x] s
    rw [appendBytes_cons, ih, readPbuf_appendByte, if_neg hfirst]
    intro j hj
    have hk := h (j + 1) (by simpa using hj)
    rw [hnext]
    omega

/-- Of at most 64 bytes appended none is written over, and byte `j` stands at its address. -/
theorem readPbuf_appendBytes {xs : List Byte} {s : State} {k : Fin 64} {j : Nat} (hlen : xs.length ≤ 64)
    (hj : j < xs.length) (hk : k.val = (s.plen.toNat + j) % 64) : readPbuf (appendBytes xs s) k = xs[j] := by
  induction xs generalizing s j with
  | nil => cases hj
  | cons x xs ih =>
    have hplen := s.plen.isLt
    have hnext : (appendByte x s).plen.toNat = (s.plen.toNat + 1) % 64 := appendBytes_plen [x] s
    rw [List.length_cons] at hlen
    rw [appendBytes_cons]
    cases j with
    | zero =>
      rw [readPbuf_appendBytes_of_ne, readPbuf_appendByte, if_pos (by omega)]
      · rfl
      · intro i hi
        rw [hnext]
        omega
    | succ j => exact ih (by omega) (by simpa using hj) (by omega)

/-- Byte `j` of an UPDATE's operand is lane `j` of its DATA. -/
theorem updateBytes_getElem {cnt : BitVec 3} {data : Word} {j : Nat} (hj : j < (updateBytes cnt data).length) :
    (updateBytes cnt data)[j] = laneByte data j := by
  simp [updateBytes]

/-- Settles O19: the address after j bytes is PLEN after that many appends. -/
theorem updateStoresOnlyAtAppendAddresses : Obligations.UpdateStoresOnlyAtAppendAddresses := by
  intro cnt data s hp hc address
  have hlen := updateBytes_length cnt data
  have haddress (j : Nat) (hj : j < cnt.toNat) : address j = (s.plen.toNat + j) % 64 := by
    have hplen := appendBytes_plen ((updateBytes cnt data).take j) s
    rwa [List.length_take_of_le (by omega)] at hplen
  refine ⟨haddress, _, exec_update_active data hp hc, fun k hk => ?others, fun k j hj hk => ?stored⟩
  case others =>
    refine readPbuf_appendBytes_of_ne fun j hj => ?_
    rw [hlen] at hj
    exact haddress j hj ▸ hk j hj
  case stored =>
    have hj' : j < (updateBytes cnt data).length := hlen.symm ▸ hj
    rw [readPbuf_appendBytes (by omega) hj' (hk.trans (haddress j hj)), updateBytes_getElem]

/-- Settles O20: the operands are the same. -/
theorem unusedLanesHaveNoEffect : Obligations.UnusedLanesHaveNoEffect := by
  intro cnt d e s hp hc hlanes
  have hbytes : updateBytes cnt d = updateBytes cnt e :=
    List.map_congr_left fun j hj => hlanes j (List.mem_range.mp hj)
  rw [exec_update_active d hp hc, exec_update_active e hp hc, hbytes]

/-- A word is its four lanes, most significant first (R47). -/
theorem be32_laneByte (w : Word) : be32 (laneByte w 0) (laneByte w 1) (laneByte w 2) (laneByte w 3) = w := by
  change (laneByte w 0 ++ laneByte w 1 ++ laneByte w 2 ++ laneByte w 3 : BitVec (8 + 8 + 8 + 8)) = w
  apply BitVec.eq_of_getLsbD_eq
  intro i hi
  simp only [BitVec.getLsbD_append, laneByte, BitVec.getLsbD_extractLsb']
  split_ifs with h1 h2 h3
  · simp [h1]
  · have hat : 8 + (i - 8) = i := by omega
    simp [h2, hat]
  · have hat : 16 + (i - 8 - 8) = i := by omega
    simp [h3, hat]
  · have hat : 24 + (i - 8 - 8 - 8) = i := by omega
    have h4 : i - 8 - 8 - 8 < 8 := by omega
    simp [h4, hat]

/-- Appends that end exactly at the end of the buffer transform the buffer they leave. -/
theorem appendBytes_h_of_full {xs : List Byte} {x : Byte} {s : State} (h : s.plen.toNat + xs.length = 63) :
    (appendBytes (xs ++ [x]) s).h = transform s.h (appendBytes (xs ++ [x]) s).pbuf := by
  obtain ⟨hh, -, hplen, -⟩ := appendBytes_within_block (s := s) (xs := xs) (by omega)
  have hlast : appendBytes (xs ++ [x]) s = completeBlock (writePbuf 63 x (appendBytes xs s)) := by
    rw [appendBytes_append]
    exact appendByte_full x _ (hplen.trans h)
  rw [hlast, completeBlock_h, completeBlock_pbuf, writePbuf_h, hh]

/-- Settles O21: the four lanes stand at 4q .. 4q + 3, and with q = 15 the last of them fills the buffer. -/
theorem alignedBeatIsMessageWord : Obligations.AlignedBeatIsMessageWord := by
  intro data s q hp hplen
  refine ⟨_, exec_update_active data hp (by decide), ?word, fun hq => ?full⟩
  case word =>
    have hlane (m : Nat) (hm : m < 4) :
        (appendBytes (updateBytes 4#3 data) s).pbuf[4 * q.val + m] = laneByte data m := by
      have hread := readPbuf_appendBytes (xs := updateBytes 4#3 data) (s := s) (k := ⟨4 * q.val + m, by omega⟩) (j := m)
        (by simp) (by simpa using hm) (by simp; omega)
      exact hread.trans (updateBytes_getElem _)
    have hword := be32_laneByte data
    rwa [← hlane 0 (by decide), ← hlane 1 (by decide), ← hlane 2 (by decide), ← hlane 3 (by decide)] at hword
  case full =>
    exact appendBytes_h_of_full (xs := updateBytes 3#3 data) (x := laneByte data 3) (by simp; omega)

end Sys2Proof.Machine

/-! PROOFS. FINAL's registers and the blocks a command consumes, O24, O25 (42_stream.md R112, R116, R118). -/

namespace Sys2Proof.Machine

open Sys2Proof.Safety

/-- Settles O24: the buffered bytes stay below the marker. -/
theorem finalClosesContext : Obligations.FinalClosesContext := by
  intro data s hp
  obtain ⟨htbits, hplen, hphase, hframe⟩ := finish_registers s
  refine ⟨finish s, exec_final_active data hp, htbits, hplen, hphase, hframe, fun k hk hn => ?_⟩
  exact (finish_one_getElem hn (by omega)).trans (if_pos hk)

/-- The buffered bytes and their padding are one block, or two where the length field has no room in the first (R116). -/
theorem padded_length (s : State) (bits : BitVec 64) :
    (pending s ++ padding s.plen.toNat bits).length = 64 * if s.plen.toNat ≤ 55 then 1 else 2 := by
  have hplen := s.plen.isLt
  rw [List.length_append, pending_length, padding_length, padZeros]
  split_ifs <;> omega

/-- In ACTIVE a well-formed NOP, UPDATE or FINAL is a command of a stream or FINAL. -/
theorem streamBytes_or_final {i : Instr} (hw : i.wellFormed = true) (hi : ∀ d, i ≠ .init d) :
    (∃ x, streamBytes i = some x) ∨ ∃ data, i = .final data := by
  cases i with
  | nop data => exact .inl ⟨[], rfl⟩
  | init data => exact absurd rfl (hi data)
  | update cnt data => exact .inl ⟨_, if_pos (of_decide_eq_true hw)⟩
  | final data => exact .inr ⟨data, rfl⟩

/-- Settles O25: an UPDATE completes at most one block, as PLEN < 64 and CNT ≤ 4; FINAL completes one or two. -/
theorem commandsConsumeCountedBlocks : Obligations.CommandsConsumeCountedBlocks := by
  intro i s hp hw hi
  obtain ⟨x, hx⟩ | ⟨data, rfl⟩ := streamBytes_or_final hw hi
  · refine ⟨?count, _, exec_stream hp hx, ?folded⟩
    case folded => rw [(appendBytes_spec x s).1, blocksConsumed_stream hp hx]
    case count =>
      have hplen := s.plen.isLt
      rw [blocksConsumed_stream hp hx, blocksOf_length, List.length_append, pending_length]
      obtain ⟨data, rfl, rfl⟩ | ⟨cnt, data, rfl, hc, rfl⟩ := streamBytes_cases hx
      · simp [transformsRun, hp]; omega
      · simp only [transformsRun, hp, updateBytes_length, hc, true_and, ne_eq, not_true_eq_false, if_false]
        split_ifs <;> omega
  · refine ⟨?count, _, exec_final_active data hp, ?folded⟩
    case folded => rw [finish_h, blocksConsumed_final data hp]
    case count =>
      rw [blocksConsumed_final data hp, blocksOf_length, padded_length, Nat.mul_div_cancel_left _ (by decide)]
      simp [transformsRun, hp]

end Sys2Proof.Machine

/-! PROOFS. What no command and no step does, and the commands without an effect of their own, O15, O28, O31, O33, O36,
O37, O41, O59 (40_init.md R80; 60_exceptions.md R136, R139, R140; 10_state.md R20; 70_reset_and_hazards.md R164). -/

namespace Sys2Proof.Machine

open Sys2Proof.Safety

/-- Settles O15. -/
theorem nopChangesNothing : Obligations.NopChangesNothing := fun _ _ => rfl

/-- Settles O33: a command that ends in FAULTED did nothing or took a fault, as each of its other effects leaves ACTIVE
or FINALIZED. -/
theorem faultsArePrecise : Obligations.FaultsArePrecise := by
  intro i s t hexec hfaulted
  obtain rfl := effect_of_exec hexec
  obtain heff | heff | ⟨x, heff⟩ | ⟨hp, xs, heff⟩ | ⟨hp, heff⟩ := effect_cases i s <;> rw [heff] at hfaulted ⊢
  · exact ⟨rfl, rfl, rfl, rfl⟩
  · cases hfaulted
  · exact ⟨rfl, rfl, rfl, rfl⟩
  · cases hp.symm.trans ((appendBytes_phase xs s).symm.trans hfaulted)
  · cases (finish_phase s).symm.trans hfaulted

/-- Only a fault extends the fault record, and nothing shortens it. -/
theorem faultRecord_prefix_effect (i : Instr) (s : State) : s.faultRecord <+: (effect i s).faultRecord := by
  obtain heff | heff | ⟨x, heff⟩ | ⟨-, xs, heff⟩ | ⟨-, heff⟩ := effect_cases i s
  · rw [heff]
  · rw [heff, startContext_faultRecord]
  · rw [heff, takeFault_faultRecord]
    exact List.prefix_append _ _
  · obtain ⟨-, -, -, hrecord, -⟩ := appendBytes_frame xs s
    rw [heff, hrecord]
  · obtain ⟨-, -, -, -, -, hrecord, -⟩ := finish_registers s
    rw [heff, hrecord]

/-- Settles O37. -/
theorem commandsLeaveHostSideAlone : Obligations.CommandsLeaveHostSideAlone := by
  intro i s
  obtain ⟨hbusy, hlog, hinbox, hreadings, hdraws⟩ := effect_frame i s
  exact ⟨_, exec_eq i s, hbusy, hlog, hinbox, hreadings, hdraws, faultRecord_prefix_effect i s⟩

/-- Settles O28: the beat's opcode and RSV pass, its count does not; the term faults before the phase is looked at. -/
theorem illFormedUpdateFaultsBadCount : Obligations.IllFormedUpdateFaultsBadCount := by
  intro cnt data s hc hp
  refine ⟨?beat, ?term⟩
  case beat => simp [decode, encode, opcodeOf, countOf, hc]
  case term =>
    rw [exec_eq]
    simp only [effect, if_neg hp, if_pos hc]
    rfl

/-- Settles O31. -/
theorem faultedDiscardsEveryBeat : Obligations.FaultedDiscardsEveryBeat := by
  refine fun s hp => ⟨fun i => ?_, fun c reads rest hb hi => ?_⟩
  · rw [exec_eq, effect.eq_def, if_pos hp]
  · obtain ⟨⟨t, tp⟩, hstep, rfl, -⟩ := step_accept_of_faulted hb hi hp
    exact ⟨_, hstep, ⟨rfl, rfl, rfl, rfl, rfl, rfl⟩, rfl⟩

/-- Settles O36, move by move. -/
theorem everyStepCompletes : Obligations.EveryStepCompletes := by
  intro s
  obtain ⟨-, h⟩ | ⟨_, -, h⟩ | ⟨_, _, -, h⟩ | ⟨_, _, -, h⟩ | ⟨_, _, _, -, -, h⟩ | ⟨_, _, _, -, -, h⟩ := step_cases s <;>
    exact ⟨_, h⟩

/-- Settles O41: each command is charged one of the parameters; in ACTIVE its number of transforms picks it. -/
theorem everyCommandTakesACycle : Obligations.EveryCommandTakesACycle := by
  refine ⟨fun lat i s ⟨hnop, hinit, hupdate, hfinal⟩ => ?_, fun lat cnt data s hp hc => ⟨rfl, rfl, ?_, ?_⟩⟩
  · cases i with
    | nop => exact hnop
    | init => exact hinit
    | update => exact hupdate _
    | final => exact hfinal _
  · have hcount : transformsRun (.update cnt data) s = if s.plen.toNat + cnt.toNat < 64 then 0 else 1 := by
      simp only [transformsRun, hp, hc, true_and, ne_eq, not_true_eq_false, if_false]
      split_ifs <;> omega
    rw [commandCycles, hcount]
  · simp [commandCycles, transformsRun, hp]

/-! ### The block's record alone -/

/-- A command leaves what stands at the ports. -/
theorem effect_toPorts (i : Instr) (s : State) : (effect i s).toPorts = s.toPorts := by
  have hports := congrArg State.toPorts (effect_withHost i s.log s.toPorts s)
  exact hports

/-- What neither reads nor writes the ports leaves in the block a function of the block's record. -/
theorem toBlockState_congr {f : State → State} (hf : ∀ l p u, f (withHost l p u) = withHost l p (f u)) {s t : State}
    (h : s.toBlockState = t.toBlockState) : (f s).toBlockState = (f t).toBlockState := by
  obtain ⟨b, sp⟩ := s
  obtain ⟨_, tp⟩ := t
  obtain rfl : b = _ := h
  have hs : f ⟨b, sp⟩ = withHost b.log sp (f ⟨b, sp⟩) := hf b.log sp ⟨b, sp⟩
  have ht : f ⟨b, tp⟩ = withHost b.log tp (f ⟨b, sp⟩) := hf b.log tp ⟨b, sp⟩
  rw [hs, ht]
  rfl

/-- Settles O59: a step on an accepted beat is the beat's effect on the logged record. -/
theorem blockRecordDeterminesItself : Obligations.BlockRecordDeterminesItself := by
  refine ⟨fun i s t h => ?command, fun s t c readsS readsT restS restT h hs ht his hit => ?beat⟩
  case command =>
    exact ⟨_, _, exec_eq i s, exec_eq i t, toBlockState_congr (effect_withHost i) h, effect_toPorts i s,
      effect_toPorts i t⟩
  case beat =>
    obtain ⟨s', hstepS, hblockS, -⟩ := step_accept hs his
    obtain ⟨t', hstepT, hblockT, -⟩ := step_accept ht hit
    have hlogged : (logged c restS (beginStep s)).toBlockState = (logged c restT (beginStep t)).toBlockState :=
      congrArg (fun b : BlockState => { b with log := b.log ++ [c] }) h
    exact ⟨s', t', hstepS, hstepT, by rw [hblockS, hblockT, toBlockState_congr (acceptEffect_withHost c) hlogged]⟩

end Sys2Proof.Machine

/-! PROOFS. The step at the ports: a beat offered to a ready and to a busy block, reads, and reset, O34, O39, O40, O43,
O45, O46 (30_encoding.md R72; 10_state.md R29, R33; 20_memory.md R49, R51; 70_reset_and_hazards.md R155). -/

namespace Sys2Proof.Machine

open Sys2Proof.Safety

/-- With BUSY = 0 a step on a legal beat is exec of its command, followed by the reads made while BUSY = 1. -/
theorem step_decoded {s : State} {c : Beat} {i : Instr} {reads : List ReadPort} {rest : List HostMove}
    (hb : s.busy = false) (hi : s.inbox = .issue c reads :: rest) (hd : decode c = .ok i) :
    step s = mapNext (serveWhileBusy reads) (exec i (logged c rest (beginStep s))) := by
  have heff := acceptEffect_encode (wellFormed_of_decode hd) (logged c rest (beginStep s))
  rw [encode_of_decode hd] at heff
  rw [step_issue hb hi, heff, exec_eq, mapNext_next]

theorem decode_of_decodeTableWord {nbits w : Nat} {i : Instr} (h : decodeTableWord nbits w = some i) :
    decode (tableBeat nbits w) = .ok i := by
  rw [decodeTableWord] at h
  split at h
  next j hj => rw [hj, Option.some.inj h]
  next => cases h

/-- Settles O34: withFetchWord offers the beat of its word. -/
theorem stepRunsTheDecodedCommand : Obligations.StepRunsTheDecodedCommand :=
  ⟨fun _ _ _ _ _ => step_decoded, fun s nbits w _ h =>
    step_decoded (s := s.withFetchWord nbits w) rfl rfl (decode_of_decodeTableWord h)⟩

/-- Settles O39. -/
theorem busyBlockAcceptsNoBeat : Obligations.BusyBlockAcceptsNoBeat := fun _ _ _ _ => step_issue_of_busy

/-- Settles O40: no move, an idle move and an accepted beat leave BUSY = 0, and a read leaves it as it is. -/
theorem readyBetweenCommands : Obligations.ReadyBetweenCommands := by
  intro s t hb hstep
  suffices hready : t.busy = false from ⟨hready, by rw [cmdReady, hready]; rfl⟩
  obtain ⟨-, h⟩ | ⟨rest, -, h⟩ | ⟨p, rest, -, h⟩ | ⟨held, rest, -, h⟩ | ⟨c, reads, rest, -, -, h⟩ |
    ⟨c, reads, rest, -, -, h⟩ := step_cases s <;> obtain rfl := Host.Outcome.next.inj (hstep.symm.trans h)
  · rfl
  · rfl
  · exact hb
  · rfl
  · rfl
  · rfl

/-! ### Reads -/

/-- The reads made while BUSY = 1 change no register. -/
theorem serveWhileBusy_sameRegisters (ports : List ReadPort) (s : State) :
    SameRegisters s (serveWhileBusy ports s) := by
  obtain ⟨rs, hserve⟩ := serveWhileBusy_eq ports s
  rw [hserve]
  exact ⟨rfl, rfl, rfl, rfl, rfl, rfl⟩

/-- A STATUS read while BUSY = 1 has BUSY = 1 and the reserved bits 0, whatever the draw. -/
theorem busyStatus_fields (draw : BitVec 14) :
    (busyStatus draw).extractLsb' 3 1 = 1#1 ∧ (busyStatus draw).extractLsb' 14 18 = 0#18 := by
  refine ⟨?_, BitVec.extractLsb'_append_eq_left⟩
  rw [busyStatus, BitVec.extractLsb'_append_eq_of_add_le (by decide)]
  ext k hk
  obtain rfl : k = 0 := by omega
  simp

/-- Settles O43: the command itself gives nothing back, so the one reading is that of the read. -/
theorem statusReadWhileBusyShowsBusy : Obligations.StatusReadWhileBusyShowsBusy := by
  intro s c rest hb hi
  obtain ⟨hbusy, hreserved⟩ := busyStatus_fields
    (Config.statusDraw (acceptEffect c (logged c rest (beginStep s))).draws)
  obtain ⟨-, -, -, hreadings, -⟩ := acceptEffect_frame c (logged c rest (beginStep s))
  refine ⟨_, _, _, step_issue hb hi, ?_, hbusy, hreserved,
    step_issue (s := { s with inbox := .issue c [] :: rest }) hb rfl, serveWhileBusy_sameRegisters _ _⟩
  exact congrArg (· ++ _) hreadings

/-- A read between two commands of a port that has a value then returns it again after any read: no register changed,
and no draw is in it. -/
theorem portRead_serveRead {p : ReadPort} {s : State} (rest : List HostMove) (hb : s.busy = false)
    (hp : p = .status ∨ s.phase = .finalized) :
    portRead p (serveRead p { beginStep s with inbox := rest }) = portRead p s := by
  cases p with
  | status =>
    rw [portRead, portRead, statusRead_of_ready (by exact hb), statusRead_of_ready hb]
    rfl
  | digest =>
    have hf : s.phase = .finalized := hp.resolve_left nofun
    rw [portRead, portRead, digestRead_of_finalized (by exact hb) (by exact hf), digestRead_of_finalized hb hf]
    rfl

/-- Settles O45: the second step reads from the state the first one leaves. -/
theorem readsAreIdempotent : Obligations.ReadsAreIdempotent := by
  intro s p rest hb hp hi
  refine ⟨_, _, portRead p s, step_read hi, step_read rfl, rfl, ?_, serveRead_sameRegisters p _,
    serveRead_sameRegisters p _⟩
  exact congrArg (fun v => [v]) (portRead_serveRead (.read p :: rest) hb hp)

/-! ### Reset -/

/-- Settles O46: what a reset leaves is `resetBlock`, and the reads made meanwhile reach only the host. -/
theorem resetLeavesUninit : Obligations.ResetLeavesUninit := by
  refine ⟨fun s held rest hi => ?_, ⟨rfl, rfl, rfl, rfl, rfl⟩, rfl⟩
  obtain ⟨rs, hserve⟩ := serveWhileBusy_eq held (resetBlock { beginStep s with inbox := rest })
  refine ⟨_, step_reset hi, ?_⟩
  rw [hserve]
  exact ⟨⟨rfl, rfl, rfl, rfl, rfl⟩, rfl, rfl⟩

end Sys2Proof.Machine

/-! PROOFS. Well-formed logs, O57 (70_reset_and_hazards.md R165, section 5). -/

namespace Sys2Proof.Machine

open Sys2Proof.Safety

/-- In FAULTED every further beat is discarded. -/
theorem acceptAll_of_faulted (cs : List Beat) {s : State} (hp : s.phase = .faulted) : acceptAll cs s = s := by
  induction cs with
  | nil => rfl
  | cons c cs ih => rw [acceptAll_cons, acceptEffect_of_faulted c hp, ih]

/-- Beats accepted from a phase other than FAULTED take no fault exactly when they are well-formed from that phase. -/
theorem acceptAll_faultRecord_eq_nil_iff (cs : List Beat) {s : State} (hp : s.phase ≠ .faulted)
    (hr : s.faultRecord = []) : wellformedFrom s.phase cs = true ↔ (acceptAll cs s).faultRecord = [] := by
  induction cs generalizing s with
  | nil => simp [wellformedFrom, hr]
  | cons c cs ih =>
    rw [acceptAll_cons]
    cases hfault : faultOf s.phase (decode c) with
    | some x =>
      rw [acceptEffect_of_fault hfault, acceptAll_of_faulted cs rfl]
      simp [wellformedFrom, hfault]
    | none =>
      have hphase := (acceptEffect_lifecycle c s).1
      have hp' : (acceptEffect c s).phase ≠ .faulted := hphase ▸ lifecycle_of_no_fault hp hfault
      have hr' := (acceptEffect_faultRecord_of_no_fault hfault).trans hr
      rw [← ih hp' hr', hphase]
      simp [wellformedFrom, hp, hfault]

/-- Settles O57: the run accepts the beats to come one after another. -/
theorem wellformedLogsRunWithoutFault : Obligations.WellformedLogsRunWithoutFault := by
  intro s ⟨hphase, _, hb, hrecord, hlog⟩
  obtain ⟨n, p, hn, hpb, hpi, hrun⟩ := run_accepts hb
  refine ⟨n, _, hn, hrun, ⟨hpi, hpb⟩, by rw [hlog]; rfl, ?_⟩
  rw [← hphase]
  exact acceptAll_faultRecord_eq_nil_iff _ (by rw [hphase]; nofun) hrecord

end Sys2Proof.Machine

/-! PROOFS. A platform's step, O58 (10_state.md R41; 60_exceptions.md R148). -/

namespace Sys2Proof.Machine

/-- Settles O58: the step of block `k` completes, and only entry `k` of the platform is set. -/
theorem instancesAreIndependent : Obligations.InstancesAreIndependent := by
  intro n p k
  obtain ⟨t, hstep⟩ := everyStepCompletes p[k]
  refine ⟨p.set k t, t, by simp only [platformStep, hstep], hstep, by simp, fun j hj => ?_⟩
  have hne : k.val ≠ j.val := fun h => hj (Fin.ext h.symm)
  simp [Vector.getElem_set_ne, hne]

end Sys2Proof.Machine
